-- ==== Sys2Proof/Word.lean ====
section
/-! DEFINITION. The word types of LOGICA-8: bytes, the nine-bit program counter, and the assembler's tokens. -/

namespace Sys2Proof

/-- A register, a memory cell, an opcode or an operand: 8 bits, unsigned (00_scope.md R5, R6). -/
abbrev Byte := BitVec 8

/-- The program counter's word: 9 bits, so that the value 256 fits (10_state.md R24). -/
abbrev PCWord := BitVec 9

/-- A token of an assembler line: its characters, with no whitespace among them (45_assembler.md R163). -/
abbrev Token := List Char

end Sys2Proof
end

