-- ==== Sys2Proof/Config.lean ====
section
/-! DEFINITION. What the hardware fixes (00_scope.md R5) and the free values of the model: constants without a
body, each applied to a counter of the state or to the operands it depends on, so that nothing can be proved of them. -/

namespace Sys2Proof.Config

/-- The number of memory cells, `MEM_SIZE` (00_scope.md R5, 20_memory.md R50). -/
abbrev memSize : Nat := 256

/-- The most entries the execution log holds, `LOG_CAPACITY` (00_scope.md R5, 10_state.md R35). -/
abbrev logCapacity : Nat := 15

/-! ### The execution log (10_state.md R35, 40_execution_cycle.md R109; log entry 5) -/

/-- FREE: the text of the unspecified log line number `position` of draw `draw`. -/
opaque logText (draw position : Nat) : String

/-- FREE: how many unspecified lines a step appends beyond those the spec requires. -/
opaque logExtra (draw : Nat) : Nat

/-- FREE: how many unspecified lines follow the "unknown opcode" entry of a skip. The bound is the log's capacity
less that entry, which the step must leave in the log (30_encoding.md R85). -/
opaque logTail (draw : Nat) : Fin logCapacity

/-! ### The fields at power-on and after a failed load (10_state.md R37, 70_reset_and_hazards.md R231, R232;
log entry 7, DESIGN CHOICE: functions of the draw alone, not of the state before) -/

/-- FREE: the accumulator where it is unspecified. -/
opaque unspecifiedA (draw : Nat) : Byte

/-- FREE: the index register where it is unspecified. -/
opaque unspecifiedX (draw : Nat) : Byte

/-- FREE: the program counter where it is unspecified. The bound is 10_state.md R24's: 0 to 256. -/
opaque unspecifiedPC (draw : Nat) : Fin (memSize + 1)

/-- FREE: the instruction register where it is unspecified. -/
opaque unspecifiedIR (draw : Nat) : Byte

/-- FREE: the carry flag where it is unspecified. -/
opaque unspecifiedCarry (draw : Nat) : Bool

/-- FREE: the zero flag where it is unspecified. -/
opaque unspecifiedZero (draw : Nat) : Bool

/-- FREE: the running bit where it is unspecified. -/
opaque unspecifiedRunning (draw : Nat) : Bool

/-- FREE: the memory cell at `addr` where memory is unspecified. -/
opaque unspecifiedCell (draw addr : Nat) : Byte

/-- FREE: how many entries the log holds where it is unspecified, at most its capacity (10_state.md R35). -/
opaque unspecifiedLogLength (draw : Nat) : Fin (logCapacity + 1)

/-! ### Characters outside ASCII (45_assembler.md R162, R163; log entry 10) -/

/-- FREE: the upper case of a character outside ASCII. -/
opaque upperBeyondAscii (c : Char) : List Char

/-- FREE: whether a character that is neither printable ASCII nor one of the six ASCII blanks is whitespace. -/
opaque otherWhitespace (c : Char) : Bool

end Sys2Proof.Config
end

