-- ==== Sys2Proof/Syntax.lean ====
section
/-! DEFINITION. The instructions of LOGICA-8: one constructor for each row of spec/opcode_table.json
(30_encoding.md R84). An unknown opcode is no instruction but a skip of the step (30_encoding.md R85; log entry 11). -/

namespace Sys2Proof

/-- The 14 instructions. An immediate `v` is a value, an address `d` a memory address or jump target; both are the
operand byte unchanged (30_encoding.md R83). -/
inductive Instr where
  /-- LDA #v (41_data_movement.md R120) -/
  | lda (v : Byte)
  /-- ADD #v (42_arithmetic.md R130) -/
  | add (v : Byte)
  /-- STA $d (41_data_movement.md R121) -/
  | sta (d : Byte)
  /-- JMP $d (43_control.md R140) -/
  | jmp (d : Byte)
  /-- SUB #v (42_arithmetic.md R131) -/
  | sub (v : Byte)
  /-- BEQ $d (43_control.md R141) -/
  | beq (d : Byte)
  /-- AND #v (44_logic.md R150) -/
  | and (v : Byte)
  /-- OR #v (44_logic.md R151) -/
  | or (v : Byte)
  /-- XOR #v (44_logic.md R152) -/
  | xor (v : Byte)
  /-- NOT (44_logic.md R153) -/
  | not
  /-- LDX #v (41_data_movement.md R122) -/
  | ldx (v : Byte)
  /-- INX (42_arithmetic.md R132) -/
  | inx
  /-- DEX (42_arithmetic.md R133) -/
  | dex
  /-- HALT (43_control.md R142) -/
  | halt
  deriving DecidableEq, Repr

/-- The operand byte of an instruction; none for the one-byte format F1 (30_encoding.md R81, R82). -/
def Instr.operand : Instr → Option Byte
  | .lda v => some v
  | .add v => some v
  | .sta d => some d
  | .jmp d => some d
  | .sub v => some v
  | .beq d => some d
  | .and v => some v
  | .or v => some v
  | .xor v => some v
  | .not => none
  | .ldx v => some v
  | .inx => none
  | .dex => none
  | .halt => none

/-- The length of an instruction in bytes, 1 or 2 (30_encoding.md R80). -/
def Instr.length (i : Instr) : Nat :=
  match i.operand with
  | none => 1
  | some _ => 2

end Sys2Proof
end

