-- ==== Sys2Proof/WellFormed.lean ====
section
/-! DEFINITION. The checks on what is given to the machine: an instruction, an instruction at an address, and the
byte sequence of a load. -/

namespace Sys2Proof

/-- Every instruction is well formed: "The operand byte of an F2 instruction has no reserved values; all 256 are
legal" (30_encoding.md R86). What can go wrong is where an instruction stands: `Instr.fitsAt`. -/
def Instr.wellFormed : Instr → Bool
  | .lda _ => true
  | .add _ => true
  | .sta _ => true
  | .jmp _ => true
  | .sub _ => true
  | .beq _ => true
  | .and _ => true
  | .or _ => true
  | .xor _ => true
  | .not => true
  | .ldx _ => true
  | .inx => true
  | .dex => true
  | .halt => true

/-- Every byte of the instruction lies in memory when its opcode is at `addr`: a two-byte instruction may not stand
at 255 (70_reset_and_hazards.md R241). -/
def Instr.fitsAt (i : Instr) (addr : Nat) : Bool :=
  decide (addr + i.length ≤ Config.memSize)

/-- The byte sequence of a load fits: no byte of it lands at 256 or above (60_exceptions.md R203). -/
def loadFits (bytes : List Byte) (offset : Byte) : Bool :=
  decide (offset.toNat + bytes.length ≤ Config.memSize)

end Sys2Proof
end

