-- ==== Sys2Proof/Decode.lean ====
section
/-! DEFINITION. The opcode map, the decoder and the encoder (30_encoding.md). The decoder is total: every byte is one
of the 14 opcodes or is skipped by name (R87). -/

namespace Sys2Proof

/-- The closed set of operations, one for each row of the opcode map (30_encoding.md R84, R87). -/
inductive Opcode where
  | lda | add | sta | jmp | sub | beq | and | or | xor | not | ldx | inx | dex | halt
  deriving DecidableEq, Repr

/-- The rows of the opcode map, in its order (30_encoding.md R84). -/
def Opcode.all : List Opcode :=
  [.lda, .add, .sta, .jmp, .sub, .beq, .and, .or, .xor, .not, .ldx, .inx, .dex, .halt]

/-- The opcode byte (30_encoding.md R84). -/
def Opcode.byte : Opcode → Byte
  | .lda => 0x01
  | .add => 0x02
  | .sta => 0x03
  | .jmp => 0x04
  | .sub => 0x05
  | .beq => 0x06
  | .and => 0x07
  | .or => 0x08
  | .xor => 0x09
  | .not => 0x0A
  | .ldx => 0x0B
  | .inx => 0x0C
  | .dex => 0x0D
  | .halt => 0xFF

/-- Whether the format is F2, with an operand byte (30_encoding.md R82, R84). -/
def Opcode.hasOperand : Opcode → Bool
  | .lda => true
  | .add => true
  | .sta => true
  | .jmp => true
  | .sub => true
  | .beq => true
  | .and => true
  | .or => true
  | .xor => true
  | .not => false
  | .ldx => true
  | .inx => false
  | .dex => false
  | .halt => false

/-- The length in bytes, fixed by the opcode alone (30_encoding.md R80, 45_assembler.md R166). -/
def Opcode.length (op : Opcode) : Nat :=
  if op.hasOperand then 2 else 1

/-- The row an opcode byte selects, by an exact match of all eight bits; none for the 242 bytes with no handler
(30_encoding.md R84, R85). -/
def Opcode.ofByte (b : Byte) : Option Opcode :=
  Opcode.all.find? (fun op => op.byte == b)

/-- The instruction an opcode and its operand byte make, the byte used unchanged (30_encoding.md R83). A one-byte
instruction takes nothing from it. -/
def Opcode.instr : Opcode → Byte → Instr
  | .lda, v => .lda v
  | .add, v => .add v
  | .sta, d => .sta d
  | .jmp, d => .jmp d
  | .sub, v => .sub v
  | .beq, d => .beq d
  | .and, v => .and v
  | .or, v => .or v
  | .xor, v => .xor v
  | .not, _ => .not
  | .ldx, v => .ldx v
  | .inx, _ => .inx
  | .dex, _ => .dex
  | .halt, _ => .halt

/-- The row of the opcode map an instruction belongs to (30_encoding.md R84). -/
def Instr.opcode : Instr → Opcode
  | .lda _ => .lda
  | .add _ => .add
  | .sta _ => .sta
  | .jmp _ => .jmp
  | .sub _ => .sub
  | .beq _ => .beq
  | .and _ => .and
  | .or _ => .or
  | .xor _ => .xor
  | .not => .not
  | .ldx _ => .ldx
  | .inx => .inx
  | .dex => .dex
  | .halt => .halt

/-- What stands at an address: one of the 14 instructions, or a byte with no handler (30_encoding.md R87). -/
inductive Decoded where
  | instr (i : Instr)
  | skip (opcode : Byte)
  deriving DecidableEq, Repr

/-- How many bytes the step passes over: the instruction's length, or 1 for a skip (30_encoding.md R88). -/
def Decoded.length : Decoded → Nat
  | .instr i => i.length
  | .skip _ => 1

/-- Decode an opcode byte, taking the operand byte from `operand` only where the format has one
(30_encoding.md R88). `operand` says how its read went, so that a read that fails is passed on. -/
def decodeAt {ε : Type} (opcode : Byte) (operand : Except ε Byte) : Except ε Decoded :=
  match Opcode.ofByte opcode with
  | none => .ok (.skip opcode)
  | some op =>
    if op.hasOperand then
      match operand with
      | .ok v => .ok (.instr (op.instr v))
      | .error e => .error e
    else .ok (.instr (op.instr 0))

/-- Why a byte sequence holds no whole instruction at its start. -/
inductive DecodeError where
  /-- There is no byte. Safe: nothing is decoded. -/
  | noByte
  /-- The opcode's operand byte is missing. Safe: nothing is decoded. -/
  | operandMissing (opcode : Byte)
  deriving DecidableEq, Repr

/-- The operand byte of an opcode that a byte sequence follows: its first byte (30_encoding.md R82). -/
def operandIn (opcode : Byte) : List Byte → Except DecodeError Byte
  | [] => .error (.operandMissing opcode)
  | v :: _ => .ok v

/-- The first instruction or skip of a byte sequence, and the bytes after it (30_encoding.md R88). -/
def decode : List Byte → Except DecodeError (Decoded × List Byte)
  | [] => .error .noByte
  | b :: rest =>
    match decodeAt b (operandIn b rest) with
    | .ok d => .ok (d, rest.drop (d.length - 1))
    | .error e => .error e

/-- One item of a decoded byte sequence. -/
inductive StreamItem where
  | whole (d : Decoded)
  /-- an opcode at the very end whose operand byte is missing -/
  | cut (opcode : Byte)
  deriving DecidableEq, Repr

/-- Decode a whole byte sequence from its first byte on, as a CPU that never jumps would read it
(30_encoding.md R88). -/
def decodeAll : List Byte → List StreamItem
  | [] => []
  | [b] =>
    match Opcode.ofByte b with
    | none => [.whole (.skip b)]
    | some op => if op.hasOperand then [.cut b] else [.whole (.instr (op.instr 0))]
  | b :: v :: rest =>
    match Opcode.ofByte b with
    | none => .whole (.skip b) :: decodeAll (v :: rest)
    | some op =>
      if op.hasOperand then .whole (.instr (op.instr v)) :: decodeAll rest
      else .whole (.instr (op.instr 0)) :: decodeAll (v :: rest)

/-- The bytes of an instruction: the opcode byte, then the operand byte where there is one
(30_encoding.md R81, R82). -/
def encode (i : Instr) : List Byte :=
  match i.operand with
  | none => [i.opcode.byte]
  | some v => [i.opcode.byte, v]

/-- The bytes of a sequence of instructions. -/
def encodeAll (is : List Instr) : List Byte :=
  is.flatMap encode

/-- The bytes an item of a decoded sequence was read from. -/
def StreamItem.bytes : StreamItem → List Byte
  | .whole (.instr i) => encode i
  | .whole (.skip b) => [b]
  | .cut b => [b]

/-- The two bytes of an instruction given as a number: the opcode byte is the low eight bits, the operand byte the
next eight, and every bit from `nbits` up is zero. -/
def tableBytes (nbits w : Nat) : List Byte :=
  [BitVec.ofNat 8 (w % 2 ^ nbits), BitVec.ofNat 8 (w % 2 ^ nbits / 256)]

/-- The instruction the decoder reads from a row's bits; none where the opcode has no handler. -/
def decodeTableWord (nbits w : Nat) : Option Instr :=
  match decode (tableBytes nbits w) with
  | .ok (.instr i, _) => some i
  | .ok (.skip _, _) => none
  | .error _ => none

end Sys2Proof
end

