-- ==== Sys2Proof/Machine/Flags.lean ====
section
/-! DEFINITION. Every flag computation of LOGICA-8: the carry of ADD, the borrow of SUB, and zero
(10_state.md R28, R29; 42_arithmetic.md R129). -/

namespace Sys2Proof.Machine

/-- carry after ADD: whether the exact sum is above 255 (10_state.md R28). -/
def addCarry (a v : Byte) : Bool :=
  decide (a.toNat + v.toNat > 255)

/-- carry after SUB: whether the exact difference is below 0, a borrow (10_state.md R28). -/
def subBorrow (a v : Byte) : Bool :=
  decide ((a.toNat : Int) - (v.toNat : Int) < 0)

/-- zero after a write of A or X: whether the value written is 0 (10_state.md R29). -/
def isZero (v : Byte) : Bool :=
  decide (v = 0)

/-- The sum that ADD and INX write: the exact sum mod 256 (42_arithmetic.md R129). -/
def wrapAdd (a v : Byte) : Byte :=
  BitVec.ofNat 8 ((a.toNat + v.toNat) % 256)

/-- The difference that SUB and DEX write: the exact difference mod 256 (42_arithmetic.md R129). -/
def wrapSub (a v : Byte) : Byte :=
  BitVec.ofInt 8 (((a.toNat : Int) - (v.toNat : Int)) % 256)

end Sys2Proof.Machine
end

