-- ==== Sys2Proof/Machine/State.lean ====
section
/-! DEFINITION. The state of LOGICA-8 as plain data (10_state.md), the reasons a step can stop, and the state after
reset. -/

namespace Sys2Proof.Machine

/-- The record of an access outside [0, 256): the address it asked for (60_exceptions.md R201). -/
structure OutOfRange where
  addr : Nat
  deriving DecidableEq, Repr

/-- The errors a Bus access can raise (60_exceptions.md R200). -/
inductive Fault where
  /-- OutOfRange: raised by the Bus for an address outside [0, 256); in a step, by the operand fetch of a two-byte
  instruction at 255 (60_exceptions.md R201). Safe: the spec gives this error. -/
  | outOfRange (r : OutOfRange)
  /-- NotAttached: raised by a Bus with no memory attached; no step and no load raises it (60_exceptions.md R202).
  Safe: the spec gives this error. -/
  | notAttached
  deriving DecidableEq, Repr

/-- Why a step is given no meaning. -/
inductive Refusal where
  /-- Raised by an arm of `exec` whose instruction has no meaning yet; no arm does. Safe: nothing follows from it. -/
  | notModelled (mnemonic : String)
  /-- Raised by a step of a machine that no successful load has made ready (40_execution_cycle.md R110). Safe: the
  spec refuses this step. -/
  | unloaded
  deriving DecidableEq, Repr

/-- The error of `load_program` (60_exceptions.md R203). -/
inductive LoadError where
  /-- ProgramTooLarge: `offset` + `length` exceeds 256. Safe: the spec gives this error. -/
  | programTooLarge (offset : Byte) (length : Nat)
  deriving DecidableEq, Repr

/-- An entry of the execution log (10_state.md R35). -/
inductive LogEntry where
  /-- the entry of a skip, whose text is "unknown opcode" -/
  | unknownOpcode
  /-- an entry whose text the spec leaves open: it is named by the draw it came from and its place in that draw, and
  its text is the free value `Config.logText draw position` (log entry 5) -/
  | line (draw position : Nat)
  deriving DecidableEq, Repr

/-- The Memory as the list of the cells that are not 0, addresses strictly rising (`Memory.wf`); an unlisted address
reads as 0 (20_memory.md R50, 70_reset_and_hazards.md R230; log entry 8). -/
structure Memory where
  cells : List Host.Cell
  deriving DecidableEq, Repr

/-- The complete state of the CPU (10_state.md R20), the spec's bookkeeping fields (R34), and the model's counter of
free values. -/
structure State where
  /-- A, the accumulator (10_state.md R21) -/
  a : Byte
  /-- X, the index/counter (10_state.md R22) -/
  x : Byte
  /-- PC, the address of the next opcode, 0 to 256 (10_state.md R24) -/
  pc : PCWord
  /-- IR, the opcode fetched last (10_state.md R27) -/
  ir : Byte
  /-- the carry or borrow of the last ADD or SUB (10_state.md R28) -/
  carry : Bool
  /-- whether the register written last was 0 (10_state.md R29) -/
  zero : Bool
  /-- true in Running, false in Halted (10_state.md R31) -/
  running : Bool
  /-- the 256 memory cells (20_memory.md R50) -/
  mem : Memory
  /-- the execution log, oldest entry first, at most 15 entries (10_state.md R35) -/
  log : List LogEntry
  /-- whether the last load succeeded (10_state.md R34) -/
  loaded : Bool
  /-- the OutOfRange record of a faulted machine (10_state.md R34) -/
  fault : Option OutOfRange
  /-- THE MODEL'S OWN: how many free values were drawn (log entry 5). DESIGN CHOICE, 0 at reset. -/
  draws : Nat
  deriving DecidableEq, Repr

/-- The machine right after reset: what `load_program([], 0)` leaves (10_state.md R37, 70_reset_and_hazards.md R230).
DESIGN CHOICE: the empty byte sequence and the offset 0 (log entry 1). -/
def State.reset : State where
  a := 0
  x := 0
  pc := 0
  ir := 0
  carry := false
  zero := false
  running := true
  mem := ⟨[]⟩
  log := []
  loaded := true
  fault := none
  draws := 0

/-- What one call of `step()` does: it returns, it raises an error to the host and leaves the machine in a state
(60_exceptions.md R205, 40_execution_cycle.md R111), or it is refused (R110). -/
inductive StepResult where
  | returned (s : State)
  | raised (e : Fault) (s : State)
  | refused (r : Refusal)
  deriving DecidableEq, Repr

/-- What one call of `load_program` does (70_reset_and_hazards.md R230, R231). -/
inductive LoadResult where
  | ok (s : State)
  | failed (e : LoadError) (s : State)
  deriving DecidableEq, Repr

end Sys2Proof.Machine
end

