-- ==== Sys2Proof/Machine/Memory.lean ====
section
/-! DEFINITION. The Memory and the Bus (20_memory.md R50 to R56). -/

namespace Sys2Proof.Machine

/-- What an unlisted address reads as: 0, as the load's zero-fill leaves it (70_reset_and_hazards.md R230;
log entry 8). -/
def unlistedCell : Byte := 0

/-- The canonical form of a cell list: addresses strictly rising and below 256, no cell equal to what an unlisted
address reads as. -/
abbrev CellsCanonical (cells : List Host.Cell) : Prop :=
  cells.Pairwise (fun p q => p.1 < q.1) ∧ ∀ c ∈ cells, c.1 < Config.memSize ∧ c.2 ≠ unlistedCell

/-- The memory is in canonical form, so that equal contents are equal data. -/
abbrev Memory.wf (m : Memory) : Prop :=
  CellsCanonical m.cells

/-- The byte a cell list gives an address. -/
def cellAt (a : Nat) : List Host.Cell → Byte
  | [] => unlistedCell
  | (k, w) :: rest => if k = a then w else cellAt a rest

/-- Put a byte at an address, keeping the canonical form. -/
def putCell (a : Nat) (v : Byte) : List Host.Cell → List Host.Cell
  | [] => if v = unlistedCell then [] else [(a, v)]
  | (k, w) :: rest =>
    if k < a then (k, w) :: putCell a v rest
    else
      let after := if k = a then rest else (k, w) :: rest
      if v = unlistedCell then after else (a, v) :: after

/-- `read(addr)` of the Memory (20_memory.md R51). -/
def Memory.read (m : Memory) (addr : Nat) : Except Fault Byte :=
  if addr < Config.memSize then .ok (cellAt addr m.cells) else .error (.outOfRange ⟨addr⟩)

/-- `write(addr, value)` of the Memory: it stores the value's low eight bits (20_memory.md R52). -/
def Memory.write (m : Memory) (addr value : Nat) : Except Fault Memory :=
  if addr < Config.memSize then .ok ⟨putCell addr (BitVec.ofNat 8 value) m.cells⟩
  else .error (.outOfRange ⟨addr⟩)

/-- The memory whose cell at each address below 256 is `f` of it. -/
def Memory.ofFn (f : Nat → Byte) : Memory :=
  ⟨(List.range Config.memSize).filterMap (fun a => if f a = unlistedCell then none else some (a, f a))⟩

/-- The Bus: a pass-through that holds at most one Memory (20_memory.md R53). -/
structure Bus where
  memory : Option Memory
  deriving DecidableEq, Repr

/-- A Bus before any memory is attached (20_memory.md R54). -/
def Bus.unattached : Bus := ⟨none⟩

/-- `attach_memory(memory)`: the last one attached is the one held, the one before it is dropped (20_memory.md R53). -/
def Bus.attach (_b : Bus) (m : Memory) : Bus := ⟨some m⟩

/-- `read(addr)` of the Bus, forwarded verbatim (20_memory.md R54). -/
def Bus.read (b : Bus) (addr : Nat) : Except Fault Byte :=
  match b.memory with
  | none => .error .notAttached
  | some m => m.read addr

/-- `write(addr, value)` of the Bus, forwarded verbatim (20_memory.md R54). -/
def Bus.write (b : Bus) (addr value : Nat) : Except Fault Bus :=
  match b.memory with
  | none => .error .notAttached
  | some m =>
    match m.write addr value with
    | .ok m' => .ok ⟨some m'⟩
    | .error e => .error e

/-- The CPU's Bus, attached to the CPU's own Memory for the CPU's whole life (20_memory.md R56; log entry 12). -/
def State.bus (s : State) : Bus :=
  Bus.unattached.attach s.mem

/-- `MemRead(addr, 1)`, the CPU's only way to read memory (20_memory.md R54, R55). -/
def State.busRead (s : State) (addr : Nat) : Except Fault Byte :=
  s.bus.read addr

/-- `MemWrite(addr, 1, v)`, the CPU's only way to write memory (20_memory.md R54, R55). -/
def State.busWrite (s : State) (addr value : Nat) : Except Fault State :=
  match s.bus.write addr value with
  | .ok b =>
    match b.memory with
    | some m => .ok { s with mem := m }
    | none => .error .notAttached
  | .error e => .error e

end Sys2Proof.Machine
end

