-- ==== Sys2Proof/Machine/Ops.lean ====
section
/-! DEFINITION. The named operations over registers, memory and the log that every meaning is built from; raising an
error, and the load, which is both reset and the only return from an error. -/

namespace Sys2Proof.Machine

/-- What a meaning and the host's step answer. -/
abbrev MachineOutcome := Host.Outcome State Fault Refusal

/-! ### Registers and flags -/

/-- `A <- v` with `zero <- (A == 0)`, as every write of A does (10_state.md R21, R29). -/
def State.writeA (v : Byte) (s : State) : State :=
  { s with a := v, zero := isZero v }

/-- `X <- v` with `zero <- (X == 0)`, as every write of X does (10_state.md R22, R29). -/
def State.writeX (v : Byte) (s : State) : State :=
  { s with x := v, zero := isZero v }

/-- `carry <- b` (10_state.md R28). -/
def State.writeCarry (b : Bool) (s : State) : State :=
  { s with carry := b }

/-- `pc <- pc + n` (10_state.md R25). -/
def State.advance (n : Nat) (s : State) : State :=
  { s with pc := s.pc + BitVec.ofNat 9 n }

/-- `pc <- target` (10_state.md R25). -/
def State.jump (target : PCWord) (s : State) : State :=
  { s with pc := target }

/-- `running <- false` (10_state.md R31). -/
def State.stop (s : State) : State :=
  { s with running := false }

/-- `IR <- b` (10_state.md R27). -/
def State.writeIR (b : Byte) (s : State) : State :=
  { s with ir := b }

/-! ### The execution log (10_state.md R35) -/

/-- Append one entry; a full log drops its oldest entry first (10_state.md R35). -/
def pushEntry (log : List LogEntry) (e : LogEntry) : List LogEntry :=
  (if log.length < Config.logCapacity then log else log.drop 1) ++ [e]

/-- `n` entries whose text the spec leaves open, the first at place `start` of the draw. -/
def openLines (draw start n : Nat) : List LogEntry :=
  (List.range n).map (fun k => LogEntry.line draw (start + k))

/-- Append entries, and count one draw of free values. -/
def State.appendLog (es : List LogEntry) (s : State) : State :=
  { s with log := es.foldl pushEntry s.log, draws := s.draws + 1 }

/-- The log of a step that executed an instruction: one entry or more, their text and number free
(10_state.md R35, 40_execution_cycle.md R109). -/
def State.logExecuted (s : State) : State :=
  s.appendLog (openLines s.draws 0 (1 + Config.logExtra s.draws))

/-- The log of a skip: an "unknown opcode" entry, and freely many others (10_state.md R35, 30_encoding.md R85). -/
def State.logSkip (s : State) : State :=
  s.appendLog (openLines s.draws 0 (Config.logExtra s.draws) ++ .unknownOpcode ::
    openLines s.draws (Config.logExtra s.draws) (Config.logTail s.draws).val)

/-- The log of a step of which the spec does not say whether it logs: freely many entries, or none
(40_execution_cycle.md R109). -/
def State.logMaybe (s : State) : State :=
  s.appendLog (openLines s.draws 0 (Config.logExtra s.draws))

/-- The text of a log entry (10_state.md R35). -/
def LogEntry.text : LogEntry → String
  | .unknownOpcode => "unknown opcode"
  | .line draw position => Config.logText draw position

/-! ### The kinds of step that run no handler -/

/-- The skip of an opcode with no handler: log, PC + 1, still Running (40_execution_cycle.md R104). -/
def State.skipUnknown (s : State) : State :=
  (s.advance 1).logSkip

/-- The halting of a machine whose PC is past the last address: PC keeps its value (40_execution_cycle.md R102). -/
def State.haltOffEnd (s : State) : State :=
  s.stop.logMaybe

/-! ### Raising an error, and the load that clears it -/

/-- Raising an error in a step: no trap entry, no saved state, no vector; the record is set, PC and `running` keep
their values, and whether the step logs is free (40_execution_cycle.md R111, 60_exceptions.md R208). NotAttached is
raised by no step and leaves no record (60_exceptions.md R202). -/
def State.raise (e : Fault) (s : State) : State :=
  match e with
  | .outOfRange r => { s.logMaybe with fault := some r }
  | .notAttached => s

/-- A Bus write whose address the caller has checked: "No write in it can fault" (70_reset_and_hazards.md R230). -/
def State.busStore (addr : Nat) (v : Byte) (s : State) : State :=
  match s.busWrite addr v.toNat with
  | .ok t => t
  | .error _ => s

/-- Write bytes through the Bus, the first at `addr` (70_reset_and_hazards.md R230). -/
def State.busStoreAll (addr : Nat) : List Byte → State → State
  | [], s => s
  | b :: bs, s => State.busStoreAll (addr + 1) bs (s.busStore addr b)

/-- The zero-fill of every cell, through the Bus (70_reset_and_hazards.md R230). -/
def State.zeroFill (s : State) : State :=
  s.busStoreAll 0 (List.replicate Config.memSize 0)

/-- A machine all of whose fields are unspecified but for `loaded`, which is false, and `fault`: each other field is
a free value of draw `draw` (10_state.md R37, 70_reset_and_hazards.md R231, R232). DESIGN CHOICE (log entry 7, unsafe where
two such machines are compared): the values depend on `draw` alone, so not on the state before a failed load, where R231
also allows that memory is as it was. -/
def State.unspecified (draw : Nat) (fault : Option OutOfRange) : State where
  a := Config.unspecifiedA draw
  x := Config.unspecifiedX draw
  pc := BitVec.ofNat 9 (Config.unspecifiedPC draw).val
  ir := Config.unspecifiedIR draw
  carry := Config.unspecifiedCarry draw
  zero := Config.unspecifiedZero draw
  running := Config.unspecifiedRunning draw
  mem := Memory.ofFn (Config.unspecifiedCell draw)
  log := openLines draw 0 (Config.unspecifiedLogLength draw).val
  loaded := false
  fault := fault
  draws := draw + 1

/-- The machine at power-on, before any load (70_reset_and_hazards.md R232). DESIGN CHOICE (log entry 7, unsafe where the two
are compared): its draw is 0, as `State.reset`'s is, so that a failed load from `State.reset` leaves exactly this state;
whether the two have the same fields the spec leaves open. -/
def State.powerOn : State :=
  State.unspecified 0 none

/-- `load_program(bytes, offset)`: reset and load (70_reset_and_hazards.md R230, R231). It is the only return from a
fault (60_exceptions.md R209). A load that fails leaves `fault` as it was (log entry 18), and
its other fields unspecified, whatever they were (log entry 7). -/
def State.loadProgram (bytes : List Byte) (offset : Byte) (s : State) : LoadResult :=
  if Config.memSize < offset.toNat + bytes.length then
    .failed (.programTooLarge offset bytes.length) (State.unspecified s.draws s.fault)
  else
    .ok { s.zeroFill.busStoreAll offset.toNat bytes with
          a := 0, x := 0, ir := 0, carry := false, zero := false, log := [],
          pc := BitVec.ofNat 9 offset.toNat, running := true, loaded := true, fault := none }

end Sys2Proof.Machine
end

