-- ==== Sys2Proof/Machine/Operands.lean ====
section
/-! DEFINITION. The operand forms (30_encoding.md R83) and the fetches (40_execution_cycle.md R103, R106). -/

namespace Sys2Proof.Machine

/-- Immediate `#v`: the operand byte is the value (30_encoding.md R83). -/
def immediate (v : Byte) : Byte := v

/-- Direct address `$d`: the operand byte is a memory address, 0 to 255 (30_encoding.md R83). -/
def directAddress (d : Byte) : Nat := d.toNat

/-- Absolute target `$d`: the new PC is the operand byte widened to 9 bits with a zero bit (30_encoding.md R83). -/
def absoluteTarget (d : Byte) : PCWord := BitVec.ofNat 9 d.toNat

/-- The opcode fetch, `MemRead(pc, 1)` (40_execution_cycle.md R103). -/
def State.fetchOpcode (s : State) : Except Fault Byte :=
  s.busRead s.pc.toNat

/-- The operand fetch, `MemRead(pc + 1, 1)` (40_execution_cycle.md R106). -/
def State.fetchOperand (s : State) : Except Fault Byte :=
  s.busRead (s.pc.toNat + 1)

/-- What every two-byte handler begins with: the operand fetch, whose failure ends it before anything is written
(40_execution_cycle.md R106). The value read is the operand the instruction carries; the step has read it the same
way to decode it (log entry 3). -/
def withOperand (s : State) (handler : MachineOutcome) : MachineOutcome :=
  match s.fetchOperand with
  | .ok _ => handler
  | .error e => .fault e

end Sys2Proof.Machine
end

