-- ==== Sys2Proof/Machine/Arithmetic.lean ====
section
/-! DEFINITION. ADD, SUB, INX, DEX (42_arithmetic.md). -/

namespace Sys2Proof.Machine

/-- ADD #v: carry from the exact sum, A the sum mod 256, zero from the new A (42_arithmetic.md R130). -/
def execAdd (v : Byte) (s : State) : MachineOutcome :=
  withOperand s (.next
    (((s.writeCarry (addCarry s.a (immediate v))).writeA (wrapAdd s.a (immediate v))).advance 2).logExecuted)

/-- SUB #v: carry is the borrow, A the difference mod 256, zero from the new A (42_arithmetic.md R131). -/
def execSub (v : Byte) (s : State) : MachineOutcome :=
  withOperand s (.next
    (((s.writeCarry (subBorrow s.a (immediate v))).writeA (wrapSub s.a (immediate v))).advance 2).logExecuted)

/-- INX: X + 1 mod 256, zero from the new X, carry unchanged (42_arithmetic.md R132). -/
def execInx (s : State) : MachineOutcome :=
  .next ((s.writeX (wrapAdd s.x 1)).advance 1).logExecuted

/-- DEX: X - 1 mod 256, zero from the new X, carry unchanged (42_arithmetic.md R133). -/
def execDex (s : State) : MachineOutcome :=
  .next ((s.writeX (wrapSub s.x 1)).advance 1).logExecuted

end Sys2Proof.Machine
end

