-- ==== Sys2Proof/Machine/Control.lean ====
section
/-! DEFINITION. JMP, BEQ, HALT (43_control.md). -/

namespace Sys2Proof.Machine

/-- JMP $d: PC is the target; the length is not added (43_control.md R140). -/
def execJmp (d : Byte) (s : State) : MachineOutcome :=
  withOperand s (.next (s.jump (absoluteTarget d)).logExecuted)

/-- BEQ $d: PC is the target when zero is set, else the next instruction (43_control.md R141). -/
def execBeq (d : Byte) (s : State) : MachineOutcome :=
  withOperand s (.next (if s.zero then s.jump (absoluteTarget d) else s.advance 2).logExecuted)

/-- HALT: running is cleared and PC passes the instruction (43_control.md R142). -/
def execHalt (s : State) : MachineOutcome :=
  .next (s.stop.advance 1).logExecuted

end Sys2Proof.Machine
end

