-- ==== Sys2Proof/Machine/DataMovement.lean ====
section
/-! DEFINITION. LDA, STA, LDX (41_data_movement.md). -/

namespace Sys2Proof.Machine

/-- LDA #v: A and zero from the operand; carry and X unchanged (41_data_movement.md R120). -/
def execLda (v : Byte) (s : State) : MachineOutcome :=
  withOperand s (.next ((s.writeA (immediate v)).advance 2).logExecuted)

/-- STA $d: the cell at d takes A; no register or flag but PC changes (41_data_movement.md R121). -/
def execSta (d : Byte) (s : State) : MachineOutcome :=
  withOperand s
    (match s.busWrite (directAddress d) s.a.toNat with
    | .ok t => .next (t.advance 2).logExecuted
    | .error e => .fault e)

/-- LDX #v: X and zero from the operand; carry and A unchanged (41_data_movement.md R122). -/
def execLdx (v : Byte) (s : State) : MachineOutcome :=
  withOperand s (.next ((s.writeX (immediate v)).advance 2).logExecuted)

end Sys2Proof.Machine
end

