-- ==== Sys2Proof/Machine/Logic.lean ====
section
/-! DEFINITION. AND, OR, XOR, NOT (44_logic.md). None writes carry. -/

namespace Sys2Proof.Machine

/-- AND #v: A and the operand, zero from the new A (44_logic.md R150). -/
def execAnd (v : Byte) (s : State) : MachineOutcome :=
  withOperand s (.next ((s.writeA (s.a &&& immediate v)).advance 2).logExecuted)

/-- OR #v: A or the operand, zero from the new A (44_logic.md R151). -/
def execOr (v : Byte) (s : State) : MachineOutcome :=
  withOperand s (.next ((s.writeA (s.a ||| immediate v)).advance 2).logExecuted)

/-- XOR #v: A exclusive-or the operand, zero from the new A (44_logic.md R152). -/
def execXor (v : Byte) (s : State) : MachineOutcome :=
  withOperand s (.next ((s.writeA (s.a ^^^ immediate v)).advance 2).logExecuted)

/-- NOT: the complement of A, zero from the new A (44_logic.md R153). -/
def execNot (s : State) : MachineOutcome :=
  .next ((s.writeA (~~~ s.a)).advance 1).logExecuted

end Sys2Proof.Machine
end

