-- ==== Sys2Proof/Machine/Dispatch.lean ====
section
/-! DEFINITION. The dispatch: one arm for each instruction (40_execution_cycle.md R104, R105). -/

namespace Sys2Proof.Machine

def exec (i : Instr) (s : State) : Host.Outcome State Fault Refusal :=
  match i with
  | .lda v => Sys2Proof.Machine.execLda v s
  | .add v => Sys2Proof.Machine.execAdd v s
  | .sta d => Sys2Proof.Machine.execSta d s
  | .jmp d => Sys2Proof.Machine.execJmp d s
  | .sub v => Sys2Proof.Machine.execSub v s
  | .beq d => Sys2Proof.Machine.execBeq d s
  | .and v => Sys2Proof.Machine.execAnd v s
  | .or v => Sys2Proof.Machine.execOr v s
  | .xor v => Sys2Proof.Machine.execXor v s
  | .not => Sys2Proof.Machine.execNot s
  | .ldx v => Sys2Proof.Machine.execLdx v s
  | .inx => Sys2Proof.Machine.execInx s
  | .dex => Sys2Proof.Machine.execDex s
  | .halt => Sys2Proof.Machine.execHalt s

end Sys2Proof.Machine
end

