-- ==== Sys2Proof/Machine/Cycle.lean ====
section
/-! DEFINITION. One call of `step()`, whole: its answer and the state it leaves (40_execution_cycle.md R108). -/

namespace Sys2Proof.Machine

/-- An error a step raises: the record is set and the error goes to the host (40_execution_cycle.md R111). -/
def raiseInStep (e : Fault) (s : State) : StepResult :=
  .raised e (s.raise e)

/-- Run an instruction's handler; the step adds nothing to PC after it (40_execution_cycle.md R105). -/
def runHandler (i : Instr) (s : State) : StepResult :=
  match exec i s with
  | .next t => .returned t
  | .fault e => raiseInStep e s
  | .refused r => .refused r

/-- Decode the fetched opcode, with the operand fetch where the format has an operand, and run its handler or skip it.
`s` holds the opcode in IR already (40_execution_cycle.md R104, R106). -/
def dispatchOpcode (opcode : Byte) (s : State) : StepResult :=
  match decodeAt opcode s.fetchOperand with
  | .error e => raiseInStep e s
  | .ok (.skip _) => .returned s.skipUnknown
  | .ok (.instr i) => runHandler i s

/-- The step of a Running machine (40_execution_cycle.md R102, R103). The opcode fetch cannot fail, since PC is
below 256. -/
def runningStep (s : State) : StepResult :=
  if Config.memSize ≤ s.pc.toNat then .returned s.haltOffEnd
  else
    match s.fetchOpcode with
    | .error e => raiseInStep e s
    | .ok opcode => dispatchOpcode opcode (s.writeIR opcode)

/-- The complete step, in the order of 40_execution_cycle.md R108: refused while Unloaded (R110), the same error again
while faulted (R111), nothing while Halted (R101). -/
def stepCall (s : State) : StepResult :=
  if s.loaded then
    match s.fault with
    | some r => .raised (.outOfRange r) s
    | none => if s.running then runningStep s else .returned s
  else .refused .unloaded

/-- The host's form of a step's answer. It carries no state where the step raises an error: that state is in the
`StepResult` (log entry 2). -/
def StepResult.outcome : StepResult → Host.Outcome State Fault Refusal
  | .returned s => .next s
  | .raised e _ => .fault e
  | .refused r => .refused r

/-- The machine with an instruction's bytes stored from PC on, ready to run: what a load does for it
(70_reset_and_hazards.md R230; log entry 1). -/
def State.placeBytes (bytes : List Byte) (s : State) : State :=
  { s.busStoreAll s.pc.toNat bytes with running := true, loaded := true, fault := none }

end Sys2Proof.Machine
end

