-- ==== Sys2Proof/Machine/Step.lean ====
section
/-! DEFINITION. The step in the host's form, and the state with an instruction placed at the program counter. -/

namespace Sys2Proof.Machine

/-- One call of `step()` (40_execution_cycle.md R108). -/
def step (s : State) : Host.Outcome State Fault Refusal :=
  (stepCall s).outcome

/-- The state whose next step fetches the instruction with the bits `w` (log entry 1). -/
def State.withFetchWord (s : State) (nbits w : Nat) : State :=
  s.placeBytes (tableBytes nbits w)

end Sys2Proof.Machine
end

