-- ==== Sys2Proof/Machine/Assembler.lean ====
section
/-! DEFINITION. The two-pass assembler, the CORE's second block (45_assembler.md), and the disassembly spelling
(30_encoding.md R89). It touches no CPU state: it is a function of its input lines, and its label table, queue and
address counter live for one call (45_assembler.md R161). -/

namespace Sys2Proof.Machine

/-- The errors of `compile`, each with the token it is about and the 1-based number of its line
(45_assembler.md R182). -/
inductive AssembleError where
  /-- A label bound already (45_assembler.md R168). Safe: the spec gives this error. -/
  | duplicateLabel (name : Token) (line : Nat)
  /-- A leading token that is no mnemonic (45_assembler.md R169). Safe: the spec gives this error. -/
  | unknownInstruction (token : Token) (line : Nat)
  /-- A two-byte mnemonic with no operand token (45_assembler.md R173). Safe: the spec gives this error. -/
  | missingOperand (mnemonic : Token) (line : Nat)
  /-- An operand that resolves to nothing, or to more than 255 (45_assembler.md R177). Safe: the spec gives this
  error. -/
  | invalidOperand (token : Token) (line : Nat)
  deriving DecidableEq, Repr

/-! ### Tokens (45_assembler.md R162, R163) -/

/-- The upper case of a character; beyond ASCII it is a free value (45_assembler.md R162; log entry 10). -/
def upperChar (c : Char) : List Char :=
  if 'a'.toNat ≤ c.toNat ∧ c.toNat ≤ 'z'.toNat then [Char.ofNat (c.toNat - 32)]
  else if c.toNat < 128 then [c]
  else Config.upperBeyondAscii c

/-- Whitespace: the six ASCII blanks are, the printable ASCII characters are not, any other character is a free value
(45_assembler.md R163; log entry 10). -/
def isWhitespace (c : Char) : Bool :=
  if c.toNat = 32 ∨ 9 ≤ c.toNat ∧ c.toNat ≤ 13 then true
  else if 33 ≤ c.toNat ∧ c.toNat ≤ 126 then false
  else Config.otherWhitespace c

/-- The line with a space put after every colon (45_assembler.md R163). -/
def spaceAfterColons (line : List Char) : List Char :=
  line.flatMap (fun c => if c = ':' then [':', ' '] else [c])

/-- Split on runs of whitespace, without empty tokens; `current` is the token being read (45_assembler.md R163). -/
def splitTokens (current : Token) : List Char → List Token
  | [] => if current = [] then [] else [current]
  | c :: cs =>
    if isWhitespace c then
      if current = [] then splitTokens [] cs else current :: splitTokens [] cs
    else splitTokens (current ++ [c]) cs

/-- The tokens of a line (45_assembler.md R163). -/
def tokenize (line : List Char) : List Token :=
  splitTokens [] (spaceAfterColons (line.flatMap upperChar))

/-! ### Mnemonics (45_assembler.md R166) -/

/-- The mnemonic of an operation (45_assembler.md R166). -/
def mnemonicOf : Opcode → Token
  | .lda => ['L', 'D', 'A']
  | .add => ['A', 'D', 'D']
  | .sta => ['S', 'T', 'A']
  | .jmp => ['J', 'M', 'P']
  | .sub => ['S', 'U', 'B']
  | .beq => ['B', 'E', 'Q']
  | .and => ['A', 'N', 'D']
  | .or => ['O', 'R']
  | .xor => ['X', 'O', 'R']
  | .not => ['N', 'O', 'T']
  | .ldx => ['L', 'D', 'X']
  | .inx => ['I', 'N', 'X']
  | .dex => ['D', 'E', 'X']
  | .halt => ['H', 'A', 'L', 'T']

/-- The operation a token names; none where it is no mnemonic (45_assembler.md R166, R169). -/
def opcodeOfName (t : Token) : Option Opcode :=
  Opcode.all.find? (fun op => mnemonicOf op == t)

/-! ### Literals (45_assembler.md R175, R176) -/

/-- The value of a digit of some base up to 16 (45_assembler.md R175). -/
def digitValue (c : Char) : Option Nat :=
  if '0'.toNat ≤ c.toNat ∧ c.toNat ≤ '9'.toNat then some (c.toNat - '0'.toNat)
  else if 'A'.toNat ≤ c.toNat ∧ c.toNat ≤ 'F'.toNat then some (c.toNat - 'A'.toNat + 10)
  else if 'a'.toNat ≤ c.toNat ∧ c.toNat ≤ 'f'.toNat then some (c.toNat - 'a'.toNat + 10)
  else none

/-- The value of a digit of the base; none for any other character (45_assembler.md R175). -/
def baseDigit (base : Nat) (c : Char) : Option Nat :=
  match digitValue c with
  | some d => if d < base then some d else none
  | none => none

/-- Read digits after the value `acc`; none as soon as one is not of the base (45_assembler.md R176). -/
def readDigits (base acc : Nat) : List Char → Option Nat
  | [] => some acc
  | c :: cs =>
    match baseDigit base c with
    | some d => readDigits base (acc * base + d) cs
    | none => none

/-- The value of a digit string in a base; none where it is empty (45_assembler.md R175, R176). -/
def digitsValue (base : Nat) (digits : List Char) : Option Nat :=
  if digits = [] then none else readDigits base 0 digits

/-- The literal grammar: `0x` hexadecimal, `%` binary, else decimal; strict (45_assembler.md R175, R176). -/
def parseLiteral : Token → Option Nat
  | '0' :: 'x' :: digits => digitsValue 16 digits
  | '0' :: 'X' :: digits => digitsValue 16 digits
  | '%' :: digits => digitsValue 2 digits
  | digits => digitsValue 10 digits

/-! ### Pass 1: addresses and labels (45_assembler.md R164 to R171) -/

/-- Label names and the addresses they are bound to (45_assembler.md R161). -/
abbrev LabelTable := List (Token × Nat)

/-- An instruction waiting for pass 2: its address, its operation, the tokens after its mnemonic, its line
(45_assembler.md R171). -/
structure QueueEntry where
  addr : Nat
  op : Opcode
  args : List Token
  line : Nat
  deriving DecidableEq, Repr

/-- The scratch state of pass 1: label table, queue and address counter (45_assembler.md R161). -/
structure PassOne where
  labels : LabelTable
  queue : List QueueEntry
  addr : Nat
  deriving DecidableEq, Repr

/-- Pass 1 before the first line (45_assembler.md R161). -/
def PassOne.start : PassOne := ⟨[], [], 0⟩

/-- The name a label token binds: the token without its final colon; none where the token is no label
(45_assembler.md R165). -/
def labelName (t : Token) : Option Token :=
  if t.getLast? = some ':' then some t.dropLast else none

/-- Queue the instruction of a line, if there is one left after its label (45_assembler.md R169 to R171). -/
def queueInstruction (tokens : List Token) (line : Nat) (p : PassOne) : Except AssembleError PassOne :=
  match tokens with
  | [] => .ok p
  | m :: args =>
    match opcodeOfName m with
    | none => .error (.unknownInstruction m line)
    | some op => .ok { p with queue := p.queue ++ [⟨p.addr, op, args, line⟩], addr := p.addr + op.length }

/-- Pass 1 on one line's tokens: only the first may be a label (45_assembler.md R164, R165, R168). -/
def passOneLine (tokens : List Token) (line : Nat) (p : PassOne) : Except AssembleError PassOne :=
  match tokens with
  | [] => .ok p
  | t :: rest =>
    match labelName t with
    | none => queueInstruction (t :: rest) line p
    | some name =>
      if (p.labels.lookup name).isSome then .error (.duplicateLabel name line)
      else queueInstruction rest line { p with labels := p.labels ++ [(name, p.addr)] }

/-- Pass 1 over the lines in order, the first numbered `line`; the first error ends it (45_assembler.md R167, R181). -/
def passOne (line : Nat) : List (List Char) → PassOne → Except AssembleError PassOne
  | [], p => .ok p
  | l :: ls, p =>
    match passOneLine (tokenize l) line p with
    | .ok p' => passOne (line + 1) ls p'
    | .error e => .error e

/-! ### Pass 2: encoding (45_assembler.md R172 to R178) -/

/-- The value of an operand token: a label first, then a literal (45_assembler.md R174). -/
def resolve (labels : LabelTable) (t : Token) : Option Nat :=
  match labels.lookup t with
  | some v => some v
  | none => parseLiteral t

/-- The bytes of one queued instruction; tokens after the operand are ignored (45_assembler.md R172, R173, R177). -/
def passTwoEntry (labels : LabelTable) (e : QueueEntry) : Except AssembleError (List Byte) :=
  if e.op.hasOperand then
    match e.args with
    | [] => .error (.missingOperand (mnemonicOf e.op) e.line)
    | t :: _ =>
      match resolve labels t with
      | none => .error (.invalidOperand t e.line)
      | some v => if v ≤ 255 then .ok [e.op.byte, BitVec.ofNat 8 v] else .error (.invalidOperand t e.line)
  else .ok [e.op.byte]

/-- Pass 2 over the queue in order; the first error ends it (45_assembler.md R172, R178, R181). -/
def passTwo (labels : LabelTable) : List QueueEntry → Except AssembleError (List Byte)
  | [] => .ok []
  | e :: es =>
    match passTwoEntry labels e with
    | .error err => .error err
    | .ok bytes =>
      match passTwo labels es with
      | .error err => .error err
      | .ok rest => .ok (bytes ++ rest)

/-- `compile` on lines as character lists: all of pass 1, then pass 2 (45_assembler.md R160, R181). -/
def assemble (lines : List (List Char)) : Except AssembleError (List Byte) :=
  match passOne 1 lines PassOne.start with
  | .ok p => passTwo p.labels p.queue
  | .error e => .error e

/-- `compile(lines)`: bytes or an error, never both (45_assembler.md R160). -/
def compile (lines : List String) : Except AssembleError (List Byte) :=
  assemble (lines.map String.toList)

/-! ### Disassembly (30_encoding.md R89) -/

/-- The upper-case hexadecimal digit of a value below 16. -/
def hexDigit (n : Nat) : Char :=
  if n < 10 then Char.ofNat ('0'.toNat + n) else Char.ofNat ('A'.toNat + (n - 10))

/-- A byte as a hexadecimal literal of two digits (30_encoding.md R89). -/
def hexLiteral (v : Byte) : Token :=
  ['0', 'x', hexDigit (v.toNat / 16), hexDigit (v.toNat % 16)]

/-- The disassembly spelling of an instruction: its mnemonic, then its operand as a hexadecimal literal
(30_encoding.md R89). -/
def disassemble (i : Instr) : List Char :=
  match i.operand with
  | none => mnemonicOf i.opcode
  | some v => mnemonicOf i.opcode ++ ' ' :: hexLiteral v

end Sys2Proof.Machine
end

