-- ==== Sys2Proof/Machine/HostCalls.lean ====
section
/-! DEFINITION. The CORE's interface to the host as one function of a request and the state
(40_execution_cycle.md R113). -/

namespace Sys2Proof.Machine

/-- The closed set of the seven error names (60_exceptions.md R200). -/
inductive ErrorName where
  | outOfRange | notAttached | programTooLarge
  | duplicateLabel | unknownInstruction | missingOperand | invalidOperand
  deriving DecidableEq, Repr

/-- An error as a call returns it to the host (60_exceptions.md R205). -/
inductive CoreError where
  | bus (e : Fault)
  | load (e : LoadError)
  | assembler (e : AssembleError)
  deriving DecidableEq, Repr

/-- The name of an error (60_exceptions.md R200). -/
def CoreError.name : CoreError → ErrorName
  | .bus (.outOfRange _) => .outOfRange
  | .bus .notAttached => .notAttached
  | .load (.programTooLarge _ _) => .programTooLarge
  | .assembler (.duplicateLabel _ _) => .duplicateLabel
  | .assembler (.unknownInstruction _ _) => .unknownInstruction
  | .assembler (.missingOperand _ _) => .missingOperand
  | .assembler (.invalidOperand _ _) => .invalidOperand

/-- What the host reads of the CPU: the log as the texts of its entries; IR and the bookkeeping fields are not
exposed (10_state.md R20, R36). -/
structure Snapshot where
  a : Byte
  x : Byte
  pc : PCWord
  carry : Bool
  zero : Bool
  running : Bool
  log : List String
  deriving DecidableEq, Repr

/-- The read-only snapshot (10_state.md R36). -/
def State.snapshot (s : State) : Snapshot where
  a := s.a
  x := s.x
  pc := s.pc
  carry := s.carry
  zero := s.zero
  running := s.running
  log := s.log.map LogEntry.text

/-- The host's requests (40_execution_cycle.md R113). -/
inductive Request where
  | loadProgram (bytes : List Byte) (offset : Byte)
  | step
  | snapshot
  | readMemory (addr : Nat)
  | compile (lines : List String)
  deriving DecidableEq, Repr

/-- What a request gives the host on success. -/
inductive Value where
  | unit
  | snapshot (v : Snapshot)
  | byte (b : Byte)
  | bytes (bs : List Byte)
  deriving DecidableEq, Repr

/-- The answer to a request: success or an error, with the machine after it, or a refused step
(40_execution_cycle.md R110, R113). -/
inductive Answer where
  | done (s : State) (v : Value)
  | failed (s : State) (e : CoreError)
  | refused (r : Refusal)
  deriving DecidableEq, Repr

/-- One request of the host, between steps (40_execution_cycle.md R113, R114). A memory read is a Bus read, which
changes nothing, and its failure is no fault of a step (20_memory.md R68; log entry 19). -/
def serve (request : Request) (s : State) : Answer :=
  match request with
  | .loadProgram bytes offset =>
    match s.loadProgram bytes offset with
    | .ok t => .done t .unit
    | .failed e t => .failed t (.load e)
  | .step =>
    match stepCall s with
    | .returned t => .done t .unit
    | .raised e t => .failed t (.bus e)
    | .refused r => .refused r
  | .snapshot => .done s (.snapshot s.snapshot)
  | .readMemory addr =>
    match s.busRead addr with
    | .ok b => .done s (.byte b)
    | .error e => .failed s (.bus e)
  | .compile lines =>
    match compile lines with
    | .ok bs => .done s (.bytes bs)
    | .error e => .failed s (.assembler e)

/-- The machine after an answer; none after a refused step, to which the spec gives no meaning
(40_execution_cycle.md R110). -/
def Answer.state : Answer → Option State
  | .done s _ => some s
  | .failed s _ => some s
  | .refused _ => none

/-- The run has ended: Halted, not faulted, loaded (40_execution_cycle.md R112). -/
def State.runEnded (s : State) : Bool :=
  !s.running && s.fault.isNone && s.loaded

end Sys2Proof.Machine
end

