-- ==== Sys2Proof/Safety.lean ====
section
/-! DEFINITION. What the statements speak of: the conditions under which a step executes, what an instruction leaves
unchanged, the invariant of the machine, and states that differ only where nothing may look. -/

namespace Sys2Proof.Machine

/-- The step executes: loaded, not faulted, Running (40_execution_cycle.md R108). -/
def Ready (s : State) : Prop :=
  s.loaded = true ∧ s.fault = none ∧ s.running = true

/-- Every byte of memory reads as before. -/
def MemSame (s t : State) : Prop :=
  ∀ addr, t.busRead addr = s.busRead addr

/-- Neither general register and neither flag changed. -/
def RegsSame (s t : State) : Prop :=
  t.a = s.a ∧ t.x = s.x ∧ t.carry = s.carry ∧ t.zero = s.zero

/-- IR, the running bit and the bookkeeping fields are as before: an executing instruction writes none of them but
HALT the running bit. -/
def ControlSame (s t : State) : Prop :=
  t.ir = s.ir ∧ t.running = s.running ∧ t.loaded = s.loaded ∧ t.fault = s.fault

/-- At least one entry was appended to the log, and nothing else happened to it (10_state.md R35). -/
def LogGrew (s t : State) : Prop :=
  ∃ entries, entries ≠ [] ∧ t.log = entries.foldl pushEntry s.log

/-- The invariant of the machine: memory canonical, PC at most 256 (10_state.md R24), the log within its capacity
(R35), and a fault of a loaded machine recording OutOfRange(256) from address 255 with `running` kept
(40_execution_cycle.md R111). -/
def Inv (s : State) : Prop :=
  s.mem.wf ∧ s.pc.toNat ≤ Config.memSize ∧ s.log.length ≤ Config.logCapacity ∧
    (s.loaded = true → ∀ r, s.fault = some r → r = ⟨256⟩ ∧ s.pc.toNat = 255 ∧ s.running = true)

/-- The bytes a fetch at PC can read: the byte at PC and the byte after it, where they exist
(40_execution_cycle.md R103, R106). -/
def State.bytesAtPC (s : State) : List Byte :=
  match s.busRead s.pc.toNat, s.busRead (s.pc.toNat + 1) with
  | .ok b, .ok v => [b, v]
  | .ok b, .error _ => [b]
  | .error _, _ => []

/-- Two states that agree on everything but the log, the counter of free values and IR, which no instruction reads
(10_state.md R27, R35). -/
def SameButLogAndIR (s t : State) : Prop :=
  s.a = t.a ∧ s.x = t.x ∧ s.pc = t.pc ∧ s.carry = t.carry ∧ s.zero = t.zero ∧ s.running = t.running ∧
    s.mem = t.mem ∧ s.loaded = t.loaded ∧ s.fault = t.fault

/-- The same outcome, the next states agreeing on everything but the log, the counter of free values and IR. -/
def OutcomesAgree : Host.Outcome State Fault Refusal → Host.Outcome State Fault Refusal → Prop
  | .next s, .next t => SameButLogAndIR s t
  | .fault e, .fault f => e = f
  | .refused q, .refused r => q = r
  | _, _ => False

/-- The instructions that write A (10_state.md R21). -/
def writesA : Instr → Bool
  | .lda _ => true
  | .add _ => true
  | .sta _ => false
  | .jmp _ => false
  | .sub _ => true
  | .beq _ => false
  | .and _ => true
  | .or _ => true
  | .xor _ => true
  | .not => true
  | .ldx _ => false
  | .inx => false
  | .dex => false
  | .halt => false

/-- The instructions that write X (10_state.md R22). -/
def writesX : Instr → Bool
  | .lda _ => false
  | .add _ => false
  | .sta _ => false
  | .jmp _ => false
  | .sub _ => false
  | .beq _ => false
  | .and _ => false
  | .or _ => false
  | .xor _ => false
  | .not => false
  | .ldx _ => true
  | .inx => true
  | .dex => true
  | .halt => false

end Sys2Proof.Machine
end

