-- ==== Sys2Proof/Certificates/Slice0/Obligations.lean ====
section
/-! DEFINITION. The statements for the provers. "Derived" statements rest on sections of the spec that hold a choice or
an inference of the spec's own; their docstrings name it. -/

open Sys2Proof Sys2Proof.Machine

/-! ### Encoding -/

/-- 30_encoding.md R84: the map selects a row exactly when all eight bits match, and each instruction's bytes are the
row's opcode and, for F2, the operand. -/
def Obligations.OpcodeMapIsExact : Prop :=
  (∀ (b : Byte) (op : Opcode), Opcode.ofByte b = some op ↔ op.byte = b) ∧
  (∀ v : Byte,
    encode (.lda v) = [0x01, v] ∧ encode (.add v) = [0x02, v] ∧ encode (.sta v) = [0x03, v] ∧
    encode (.jmp v) = [0x04, v] ∧ encode (.sub v) = [0x05, v] ∧ encode (.beq v) = [0x06, v] ∧
    encode (.and v) = [0x07, v] ∧ encode (.or v) = [0x08, v] ∧ encode (.xor v) = [0x09, v] ∧
    encode .not = [0x0A] ∧ encode (.ldx v) = [0x0B, v] ∧ encode .inx = [0x0C] ∧
    encode .dex = [0x0D] ∧ encode .halt = [0xFF]) ∧
  (∀ i : Instr, Opcode.ofByte i.opcode.byte = some i.opcode)

/-- 30_encoding.md R80: whatever follows, the opcode byte alone says how many bytes are taken: two for 0x01 to 0x09 and
0x0B, one for every other byte. -/
def Obligations.LengthFixedByOpcode : Prop :=
  ∀ (b v : Byte) (rest : List Byte),
    ∃ d, decode (b :: v :: rest) = .ok (d, (b :: v :: rest).drop d.length) ∧
      d.length = if (1 ≤ b.toNat ∧ b.toNat ≤ 9) ∨ b = 0x0B then 2 else 1

/-- 30_encoding.md R85, first part: exactly the bytes 0x00 and 0x0E to 0xFE have no handler; there are 242 of them; the
decoder answers a skip of one byte for each. -/
def Obligations.UnknownOpcodesAreSkips : Prop :=
  (∀ (b : Byte) (rest : List Byte),
    decode (b :: rest) = .ok (.skip b, rest) ↔ b = 0x00 ∨ (0x0E ≤ b.toNat ∧ b.toNat ≤ 0xFE)) ∧
  ((List.range 256).filter (fun n => (Opcode.ofByte (BitVec.ofNat 8 n)).isNone)).length = 242

/-- Sanity: words written from 30_encoding.md R82 and R84, one or more of each family, decode to their instructions,
and a byte with no handler to none. -/
def Obligations.SampleWordsDecode : Prop :=
  decodeTableWord 16 0xA501 = some (.lda 0xA5) ∧ decodeTableWord 16 0x8003 = some (.sta 0x80) ∧
  decodeTableWord 16 0x0A02 = some (.add 0x0A) ∧ decodeTableWord 8 0x0D = some .dex ∧
  decodeTableWord 16 0x0606 = some (.beq 0x06) ∧ decodeTableWord 8 0xFF = some .halt ∧
  decodeTableWord 16 0x0C09 = some (.xor 0x0C) ∧ decodeTableWord 8 0x0A = some .not ∧
  decodeTableWord 8 0x0E = none

/-- Decoding the bytes of a well-formed instruction, whatever follows them, gives it back and leaves what follows
(30_encoding.md R82, R88). -/
def Obligations.DecodeOfEncode : Prop :=
  ∀ (i : Instr) (rest : List Byte), i.wellFormed = true → decode (encode i ++ rest) = .ok (.instr i, rest)

/-- Decode and encode agree on whole programs: the bytes of any sequence of instructions decode, from the first byte
on, to that sequence, with every operand at every value (30_encoding.md R80 to R88). -/
def Obligations.DecodeAllOfEncodeAll : Prop :=
  ∀ is : List Instr, (∀ i ∈ is, i.wellFormed = true) →
    decodeAll (encodeAll is) = is.map (fun i => .whole (.instr i))

/-- No bit is dropped: from whatever decoding any byte sequence gives, the bytes can be written again
(30_encoding.md R80 to R88). -/
def Obligations.BytesOfDecodeAll : Prop :=
  ∀ bytes : List Byte, (decodeAll bytes).flatMap StreamItem.bytes = bytes

/-- Decoding a byte sequence is decoding its first instruction or skip, then the bytes after it
(30_encoding.md R88). -/
def Obligations.DecodeAllFollowsDecode : Prop :=
  ∀ (bytes rest : List Byte) (d : Decoded), decode bytes = .ok (d, rest) →
    decodeAll bytes = .whole d :: decodeAll rest

/-! ### Memory and Bus -/

/-- 20_memory.md R50 to R52: inside [0, 256) a write stores the value's low eight bits, a read gives back the byte
stored last, every other cell is left alone and the canonical form is kept; outside, both fail with OutOfRange. The
size 256 is the spec's choice D2; the canonical form and natural numbers as addresses are the model's (log entries 8
and 9). -/
def Obligations.MemoryWriteThenRead : Prop :=
  ∀ (m : Memory) (a value : Nat), m.wf →
    (a < 256 → ∃ (m' : Memory) (b : Byte), m.write a value = .ok m' ∧ m'.wf ∧
      m'.read a = .ok b ∧ b.toNat = value % 256 ∧ ∀ k, k ≠ a → m'.read k = m.read k) ∧
    (¬ a < 256 → m.write a value = .error (.outOfRange ⟨a⟩) ∧ m.read a = .error (.outOfRange ⟨a⟩))

/-- 20_memory.md R50 ("each address owns exactly one cell"): memories in canonical form that read the same everywhere
are the same data. The canonical form is the model's (log entry 8). -/
def Obligations.EqualReadsEqualMemory : Prop :=
  ∀ m m' : Memory, m.wf → m'.wf → (∀ a, m.read a = m'.read a) → m = m'

/-- 20_memory.md R53 and R54: a Bus with no memory fails with NotAttached; an attached one forwards verbatim; the last
memory attached is the one held. That the CPU's primitives are these operations on its own memory in every state is the
spec's choice D7 (R56; log entry 12). -/
def Obligations.BusForwardsToMemory : Prop :=
  (∀ a value, Bus.unattached.read a = .error .notAttached ∧ Bus.unattached.write a value = .error .notAttached) ∧
  (∀ (b : Bus) (m : Memory) (a : Nat), (b.attach m).read a = m.read a) ∧
  (∀ (b : Bus) (m : Memory) (a value : Nat),
    (∀ m', m.write a value = .ok m' → (b.attach m).write a value = .ok (b.attach m')) ∧
    (∀ e, m.write a value = .error e → (b.attach m).write a value = .error e)) ∧
  (∀ (b : Bus) (m m' : Memory), (b.attach m).attach m' = b.attach m') ∧
  (∀ (s : State) (a : Nat), s.busRead a = s.mem.read a) ∧
  (∀ (s : State) (a value : Nat),
    (∀ m, s.mem.write a value = .ok m → s.busWrite a value = .ok { s with mem := m }) ∧
    (∀ e, s.mem.write a value = .error e → s.busWrite a value = .error e))

/-- 20_memory.md R56, the spec's choice D7 (log entry 12): no step raises NotAttached. -/
def Obligations.NotAttachedNeverRaised : Prop :=
  ∀ s t : State, stepCall s ≠ .raised .notAttached t

/-! ### The instructions: each completes, with what it writes and what it leaves (the operand fetch's failure is
`OperandFetchFaults`). They speak of `exec` in every state, those in which no step runs it included (log entry 15). -/

/-- LDA (41_data_movement.md, R120's pseudocode and flags) completes wherever its operand byte exists. -/
def Obligations.LdaLoadsImmediate : Prop :=
  ∀ (v : Byte) (s : State), s.pc.toNat + 1 < 256 →
    ∃ t, exec (.lda v) s = .next t ∧ t.a = v ∧ (t.zero = true ↔ v = 0) ∧ t.pc.toNat = s.pc.toNat + 2 ∧
      t.x = s.x ∧ t.carry = s.carry ∧ ControlSame s t ∧ MemSame s t ∧ LogGrew s t

/-- STA (41_data_movement.md, R121's pseudocode and flags) completes wherever its operand byte exists; the one cell
written is the one the operand addresses, be it a byte of the instruction itself. -/
def Obligations.StaStoresAccumulator : Prop :=
  ∀ (d : Byte) (s : State), s.mem.wf → s.pc.toNat + 1 < 256 →
    ∃ t, exec (.sta d) s = .next t ∧ t.busRead (directAddress d) = .ok s.a ∧
      (∀ addr, addr ≠ directAddress d → t.busRead addr = s.busRead addr) ∧
      t.pc.toNat = s.pc.toNat + 2 ∧ RegsSame s t ∧ ControlSame s t ∧ LogGrew s t

/-- LDX (41_data_movement.md, R122's pseudocode and flags) completes wherever its operand byte exists. -/
def Obligations.LdxLoadsImmediate : Prop :=
  ∀ (v : Byte) (s : State), s.pc.toNat + 1 < 256 →
    ∃ t, exec (.ldx v) s = .next t ∧ t.x = v ∧ (t.zero = true ↔ v = 0) ∧ t.pc.toNat = s.pc.toNat + 2 ∧
      t.a = s.a ∧ t.carry = s.carry ∧ ControlSame s t ∧ MemSame s t ∧ LogGrew s t

/-- ADD (42_arithmetic.md, R130's pseudocode and flags) completes wherever its operand byte exists. -/
def Obligations.AddWrapsAndCarries : Prop :=
  ∀ (v : Byte) (s : State), s.pc.toNat + 1 < 256 →
    ∃ t, exec (.add v) s = .next t ∧ t.a.toNat = (s.a.toNat + v.toNat) % 256 ∧
      (t.carry = true ↔ s.a.toNat + v.toNat > 255) ∧ (t.zero = true ↔ t.a = 0) ∧
      t.pc.toNat = s.pc.toNat + 2 ∧ t.x = s.x ∧ ControlSame s t ∧ MemSame s t ∧ LogGrew s t

/-- SUB (42_arithmetic.md, R131's pseudocode and flags) completes wherever its operand byte exists; carry is the
borrow. -/
def Obligations.SubWrapsAndBorrows : Prop :=
  ∀ (v : Byte) (s : State), s.pc.toNat + 1 < 256 →
    ∃ t, exec (.sub v) s = .next t ∧ (t.a.toNat : Int) = ((s.a.toNat : Int) - v.toNat) % 256 ∧
      (t.carry = true ↔ s.a.toNat < v.toNat) ∧ (t.zero = true ↔ t.a = 0) ∧
      t.pc.toNat = s.pc.toNat + 2 ∧ t.x = s.x ∧ ControlSame s t ∧ MemSame s t ∧ LogGrew s t

/-- 42_arithmetic.md R132, whole: INX is the byte 0x0C, completes at every address, wraps 255 to 0, leaves carry, and
from 255 leads to the off-end halt. -/
def Obligations.InxIncrements : Prop :=
  encode .inx = [0x0C] ∧
  ∀ s : State, s.pc.toNat < 256 →
    ∃ t, exec .inx s = .next t ∧ t.x.toNat = (s.x.toNat + 1) % 256 ∧ (t.zero = true ↔ t.x = 0) ∧
      t.pc.toNat = s.pc.toNat + 1 ∧ t.a = s.a ∧ t.carry = s.carry ∧ ControlSame s t ∧ MemSame s t ∧ LogGrew s t ∧
      (s.pc.toNat = 255 → Ready s → ∃ u, step t = .next u ∧ u.running = false)

/-- 42_arithmetic.md R133, whole: DEX is the byte 0x0D, completes at every address, wraps 0 to 255 and leaves carry. -/
def Obligations.DexDecrements : Prop :=
  encode .dex = [0x0D] ∧
  ∀ s : State, s.pc.toNat < 256 →
    ∃ t, exec .dex s = .next t ∧ (t.x.toNat : Int) = ((s.x.toNat : Int) - 1) % 256 ∧ (t.zero = true ↔ t.x = 0) ∧
      t.pc.toNat = s.pc.toNat + 1 ∧ t.a = s.a ∧ t.carry = s.carry ∧ ControlSame s t ∧ MemSame s t ∧ LogGrew s t

/-- JMP (43_control.md, R140's pseudocode and flags) completes wherever its operand byte exists; PC is the operand, and
the length is not added. -/
def Obligations.JmpSetsPC : Prop :=
  ∀ (d : Byte) (s : State), s.pc.toNat + 1 < 256 →
    ∃ t, exec (.jmp d) s = .next t ∧ t.pc.toNat = d.toNat ∧
      RegsSame s t ∧ ControlSame s t ∧ MemSame s t ∧ LogGrew s t

/-- BEQ (43_control.md, R141's pseudocode and flags) completes wherever its operand byte exists, taken or not. -/
def Obligations.BeqBranchesOnZero : Prop :=
  ∀ (d : Byte) (s : State), s.pc.toNat + 1 < 256 →
    ∃ t, exec (.beq d) s = .next t ∧
      t.pc.toNat = (if s.zero = true then d.toNat else s.pc.toNat + 2) ∧
      RegsSame s t ∧ ControlSame s t ∧ MemSame s t ∧ LogGrew s t

/-- 43_control.md R142, whole: HALT is the byte 0xFF, completes at every address and passes it, clears `running` and
nothing else; a fetched 0xFF byte halts however it came there; after it every step is a no-op, and a load that succeeds
makes the CPU run again. -/
def Obligations.HaltStops : Prop :=
  encode .halt = [0xFF] ∧
  (∀ s : State, s.pc.toNat < 256 →
    ∃ t, exec .halt s = .next t ∧ t.running = false ∧ t.pc.toNat = s.pc.toNat + 1 ∧ RegsSame s t ∧
      t.ir = s.ir ∧ t.loaded = s.loaded ∧ t.fault = s.fault ∧ MemSame s t ∧ LogGrew s t) ∧
  (∀ s : State, Ready s → s.busRead s.pc.toNat = .ok 0xFF →
    ∃ t, step s = .next t ∧ t.running = false ∧ t.pc.toNat = s.pc.toNat + 1 ∧
      (∀ k, Host.Core.run Sys2Proof.core k t = .next t) ∧
      ∀ bytes offset u, t.loadProgram bytes offset = .ok u → Ready u)

/-- AND (44_logic.md, R150's pseudocode and flags) completes wherever its operand byte exists. -/
def Obligations.AndMasks : Prop :=
  ∀ (v : Byte) (s : State), s.pc.toNat + 1 < 256 →
    ∃ t, exec (.and v) s = .next t ∧ (∀ k, t.a.getLsbD k = (s.a.getLsbD k && v.getLsbD k)) ∧
      (t.zero = true ↔ t.a = 0) ∧ t.pc.toNat = s.pc.toNat + 2 ∧
      t.x = s.x ∧ t.carry = s.carry ∧ ControlSame s t ∧ MemSame s t ∧ LogGrew s t

/-- OR (44_logic.md, R151's pseudocode and flags) completes wherever its operand byte exists. -/
def Obligations.OrSets : Prop :=
  ∀ (v : Byte) (s : State), s.pc.toNat + 1 < 256 →
    ∃ t, exec (.or v) s = .next t ∧ (∀ k, t.a.getLsbD k = (s.a.getLsbD k || v.getLsbD k)) ∧
      (t.zero = true ↔ t.a = 0) ∧ t.pc.toNat = s.pc.toNat + 2 ∧
      t.x = s.x ∧ t.carry = s.carry ∧ ControlSame s t ∧ MemSame s t ∧ LogGrew s t

/-- XOR (44_logic.md, R152's pseudocode, flags and corner case: zero exactly when the operand equals the old A)
completes wherever its operand byte exists. -/
def Obligations.XorFlips : Prop :=
  ∀ (v : Byte) (s : State), s.pc.toNat + 1 < 256 →
    ∃ t, exec (.xor v) s = .next t ∧ (∀ k, t.a.getLsbD k = (s.a.getLsbD k ^^ v.getLsbD k)) ∧
      (t.zero = true ↔ t.a = 0) ∧ (t.zero = true ↔ v = s.a) ∧ t.pc.toNat = s.pc.toNat + 2 ∧
      t.x = s.x ∧ t.carry = s.carry ∧ ControlSame s t ∧ MemSame s t ∧ LogGrew s t

/-- 44_logic.md R153, whole: NOT is the byte 0x0A, completes at every address, and makes A 255 less its old value; two
NOTs restore A. -/
def Obligations.NotComplements : Prop :=
  encode .not = [0x0A] ∧
  ∀ s : State, s.pc.toNat < 256 →
    ∃ t, exec .not s = .next t ∧ t.a = ~~~ s.a ∧ t.a.toNat = 255 - s.a.toNat ∧ (t.zero = true ↔ t.a = 0) ∧
      t.pc.toNat = s.pc.toNat + 1 ∧ t.x = s.x ∧ t.carry = s.carry ∧ ControlSame s t ∧ MemSame s t ∧ LogGrew s t ∧
      ∀ u, exec .not t = .next u → u.a = s.a

/-- 40_execution_cycle.md R106, the spec's choice D3 (every two-byte handler reads its operand first, BEQ included;
log entry 13): where the operand byte does not exist the handler raises OutOfRange with its address. For a PC above
255, where no step runs a handler, that is the model's choice (log entry 15). -/
def Obligations.OperandFetchFaults : Prop :=
  ∀ (i : Instr) (s : State), i.length = 2 → 256 ≤ s.pc.toNat + 1 →
    exec i s = .fault (.outOfRange ⟨s.pc.toNat + 1⟩)

/-! ### The step -/

/-- Where the bytes at PC decode to a well-formed instruction, the step of a machine that executes is that instruction's
meaning, with IR holding the opcode fetched and nothing added to PC after it (40_execution_cycle.md R103 to R106). -/
def Obligations.StepRunsDecodedInstruction : Prop :=
  ∀ (s : State) (i : Instr) (rest : List Byte), Ready s → i.wellFormed = true →
    decode s.bytesAtPC = .ok (.instr i, rest) →
    s.busRead s.pc.toNat = .ok i.opcode.byte ∧ step s = exec i (s.writeIR i.opcode.byte)

/-- 60_exceptions.md R204: an unknown opcode is no error: the step answers a next state, in which PC has passed one
byte, an "unknown opcode" entry stands in the log, IR holds the byte, and nothing else changed. That IR holds it is the
spec's choice D10 (log entry 13); that the entry still stands in the log after the step is the model's choice of at most
14 entries after it (log entry 5). -/
def Obligations.StepSkipsUnknownOpcode : Prop :=
  ∀ (s : State) (b : Byte), Ready s → s.busRead s.pc.toNat = .ok b → Opcode.ofByte b = none →
    ∃ t, step s = .next t ∧ t.pc.toNat = s.pc.toNat + 1 ∧ t.ir = b ∧ .unknownOpcode ∈ t.log ∧
      "unknown opcode" ∈ t.snapshot.log ∧ RegsSame s t ∧ MemSame s t ∧ Ready t

/-- 40_execution_cycle.md R102, with the spec's choices D14, that PC keeps its value, and D10, that IR does (log entry
13): past the last address the step clears `running` and changes nothing else but, freely, the log (R109; log entry
5). -/
def Obligations.StepHaltsOffEnd : Prop :=
  ∀ s : State, Ready s → 256 ≤ s.pc.toNat →
    ∃ t, step s = .next t ∧ t.running = false ∧ t.pc = s.pc ∧ t.ir = s.ir ∧ t.loaded = true ∧ t.fault = none ∧
      RegsSame s t ∧ MemSame s t

/-- 40_execution_cycle.md R101: a step of a Halted machine (loaded and not faulted, R108) changes no state at all, the
log included, and raises nothing; nor does any number of them. -/
def Obligations.HaltedStepDoesNothing : Prop :=
  ∀ (s : State) (k : Nat), s.loaded = true → s.fault = none → s.running = false →
    stepCall s = .returned s ∧ Host.Core.run Sys2Proof.core k s = .next s

/-- 40_execution_cycle.md R110 and 70_reset_and_hazards.md R231, R232, the spec's choices D5 and D6: every step is
refused at power-on and after a failed load, which leaves the record of a fault as it was (log entry 18). -/
def Obligations.UnloadedStepRefused : Prop :=
  (∀ s : State, s.loaded = false → step s = .refused .unloaded) ∧
  step State.powerOn = .refused .unloaded ∧
  (∀ bytes offset (s t : State) e, s.loadProgram bytes offset = .failed e t →
    t.loaded = false ∧ t.fault = s.fault ∧ step t = .refused .unloaded)

/-- 40_execution_cycle.md R106 and R111: the step of a two-byte instruction at 255 raises OutOfRange(256), for a BEQ
that would not branch too by the spec's choice D3, and leaves, by its choice D4, a machine in which IR holds the
opcode, the fault is recorded, and everything else but, freely, the log is as before (log entry 13). -/
def Obligations.FaultingStepState : Prop :=
  ∀ (s : State) (b : Byte) (op : Opcode), Ready s → s.pc.toNat = 255 → s.busRead 255 = .ok b →
    Opcode.ofByte b = some op → op.hasOperand = true →
    step s = .fault (.outOfRange ⟨256⟩) ∧
    ∃ t, stepCall s = .raised (.outOfRange ⟨256⟩) t ∧ t.ir = b ∧ t.fault = some ⟨256⟩ ∧ t.pc = s.pc ∧
      t.running = true ∧ t.loaded = true ∧ RegsSame s t ∧ MemSame s t

/-- 40_execution_cycle.md R111, the spec's choice D4: every later step of a faulted machine raises the same error and
changes nothing. -/
def Obligations.FaultIsSticky : Prop :=
  ∀ (s : State) (r : OutOfRange), s.loaded = true → s.fault = some r →
    stepCall s = .raised (.outOfRange r) s ∧ ∀ k, Host.Core.run Sys2Proof.core (k + 1) s = .fault (.outOfRange r)

/-- 60_exceptions.md R201 and R207, inferences of the spec, with its choices D3 (every two-byte handler reads its
operand), D4 (the sticky record) and D7 (no NotAttached), log entries 12 and 13: from a state of the invariant, the
only error a step raises is OutOfRange(256), and the one that raises it first is a two-byte opcode at 255. -/
def Obligations.OnlyOperandFetchFaults : Prop :=
  ∀ (s t : State) (e : Fault), Inv s → stepCall s = .raised e t →
    e = .outOfRange ⟨256⟩ ∧ s.pc.toNat = 255 ∧
      (s.fault = none → ∃ b op, s.busRead 255 = .ok b ∧ Opcode.ofByte b = some op ∧ op.hasOperand = true)

/-! ### Invariants -/

/-- The invariant holds after reset. The reset state is the model's choice of a load (log entry 1), and its empty log
and canonical memory are log entries 6 and 8. -/
def Obligations.InvHoldsAtReset : Prop :=
  Inv State.reset

/-- Every step keeps the invariant: the state a step returns, and the state it leaves when it raises an error
(10_state.md R24, R35; 40_execution_cycle.md R111). That PC is at most 256 rests on the spec's choices D1 (nine bits,
no wrap) and D3 (a BEQ at 255 faults even where it would not branch), the faulted state on its choice D4 (log entries
4 and 13); the canonical memory is the model's (log entry 8). -/
def Obligations.StepKeepsInv : Prop :=
  ∀ s : State, Inv s →
    (∀ t, step s = .next t → Inv t) ∧ (∀ e t, stepCall s = .raised e t → Inv t)

/-- Every request of the host keeps the invariant, a load that fails included (40_execution_cycle.md R113). That a
failed load leaves a PC of at most 256 and a log of at most 15 entries is the model's choice (log entry 7), where
70_reset_and_hazards.md R231 leaves these fields unspecified; the canonical memory is log entry 8; for the step the
spec's choices D1, D3 and D4 are used, and for the memory read its D8 (log entries 13 and 19). -/
def Obligations.HostCallsKeepInv : Prop :=
  ∀ (request : Request) (s t : State), Inv s → (serve request s).state = some t → Inv t

/-! ### Load and reset -/

/-- 70_reset_and_hazards.md R230 and 10_state.md R37's middle column: what a load that succeeds leaves, from any state
with canonical memory (log entry 8). That the log is empty is the model's reading of R37 and R230 against the spec's
decision D9 (log entry 6); that IR is 0 is the spec's choice D10 (log entry 13). -/
def Obligations.LoadPostcondition : Prop :=
  ∀ (bytes : List Byte) (offset : Byte) (s t : State), s.mem.wf → s.loadProgram bytes offset = .ok t →
    t.a = 0 ∧ t.x = 0 ∧ t.ir = 0 ∧ t.carry = false ∧ t.zero = false ∧ t.log = [] ∧ t.pc.toNat = offset.toNat ∧
      t.running = true ∧ t.loaded = true ∧ t.fault = none ∧ t.mem.wf ∧
      ∀ addr, addr < 256 → t.busRead addr = .ok
        (if h : offset.toNat ≤ addr ∧ addr - offset.toNat < bytes.length then bytes[addr - offset.toNat]'h.2 else 0)

/-- 60_exceptions.md R203: a load fails with ProgramTooLarge exactly when a byte would land at 256 or above; an empty
byte sequence never fails. That the error carries the offset and the length is the spec's choice D25 (log entry 14).
-/
def Obligations.LoadTooLargeFails : Prop :=
  (∀ (bytes : List Byte) (offset : Byte) (s : State),
    (256 < offset.toNat + bytes.length →
      ∃ t, s.loadProgram bytes offset = .failed (.programTooLarge offset bytes.length) t) ∧
    (offset.toNat + bytes.length ≤ 256 → ∃ t, s.loadProgram bytes offset = .ok t)) ∧
  (∀ (offset : Byte) (s : State), ∃ t, s.loadProgram [] offset = .ok t)

/-- The model's choice of log entry 1: the reset state is what loading the empty byte sequence at 0 leaves, from any
state with canonical memory (log entry 8); the model's counter of free values goes on (log entry 5). The empty log is
the model's reading of R37 and R230 against the spec's decision D9 (log entry 6), and IR 0 the spec's choice D10 (log
entry 13). -/
def Obligations.ResetIsEmptyLoad : Prop :=
  ∀ s : State, s.mem.wf → s.loadProgram [] 0 = .ok { State.reset with draws := s.draws }

/-- 60_exceptions.md R209, the spec's choices D4 and D12 (log entry 13): nothing the host asks for clears a fault but
a load that succeeds. That a load that fails keeps the record, and that a memory read out of range does not touch it,
are log entries 18 and 19. -/
def Obligations.OnlyLoadClearsFault : Prop :=
  ∀ (request : Request) (s t : State) (r : OutOfRange), s.fault = some r →
    (serve request s).state = some t →
    t.fault = some r ∨ ∃ bytes offset, request = .loadProgram bytes offset ∧ s.loadProgram bytes offset = .ok t

/-- 70_reset_and_hazards.md R233: the first step after a load, whatever was loaded where, fetches its opcode at `offset`:
the first byte loaded (0, where none was); and it runs the instruction that stands there. The fetch is read off IR, which
every opcode fetch writes by the spec's choice D10 and which a faulting step keeps by its choice D4 (log entry 13). -/
def Obligations.EntryPointIsOffset : Prop :=
  ∀ (bytes : List Byte) (offset : Byte) (s t : State), s.mem.wf → s.loadProgram bytes offset = .ok t →
    t.pc.toNat = offset.toNat ∧
    (∃ u, (stepCall t = .returned u ∨ ∃ e, stepCall t = .raised e u) ∧ u.ir = bytes.headD 0) ∧
    (∀ (i : Instr) (rest : List Byte), decode t.bytesAtPC = .ok (.instr i, rest) →
      step t = exec i (t.writeIR i.opcode.byte))

/-! ### Whole-machine rules -/

/-- 10_state.md R29: zero follows every write of A and X, in both directions, and nothing else changes it but a load;
BEQ reads it. -/
def Obligations.ZeroFlagRule : Prop :=
  (∀ (i : Instr) (s t : State), exec i s = .next t →
    (writesA i = true → (t.zero = true ↔ t.a = 0)) ∧ (writesX i = true → (t.zero = true ↔ t.x = 0)) ∧
    (writesA i = false → writesX i = false → t.zero = s.zero)) ∧
  (∀ (s t : State) (b : Byte), Ready s → s.busRead s.pc.toNat = .ok b → Opcode.ofByte b = none →
    step s = .next t → t.zero = s.zero) ∧
  (∀ bytes offset (s t : State), s.loadProgram bytes offset = .ok t → t.zero = false) ∧
  (∀ (d : Byte) (s t : State), exec (.beq d) s = .next t →
    t.pc = if s.zero = true then absoluteTarget d else s.pc + 2)

/-- 70_reset_and_hazards.md R238: carry is written by ADD and SUB only and is never cleared otherwise, so that the
snapshot shows the carry of the last ADD or SUB after any other instruction, and after any step that is no ADD or
SUB. -/
def Obligations.CarryStaysStale : Prop :=
  (∀ (v : Byte) (s t : State), exec (.add v) s = .next t → (t.carry = true ↔ s.a.toNat + v.toNat > 255)) ∧
  (∀ (v : Byte) (s t : State), exec (.sub v) s = .next t → (t.carry = true ↔ s.a.toNat < v.toNat)) ∧
  (∀ (i : Instr) (s t : State), exec i s = .next t → i.opcode ≠ .add → i.opcode ≠ .sub →
    t.snapshot.carry = s.snapshot.carry) ∧
  (∀ s t : State, step s = .next t → s.busRead s.pc.toNat ≠ .ok 0x02 → s.busRead s.pc.toNat ≠ .ok 0x05 →
    t.snapshot.carry = s.snapshot.carry)

/-- 10_state.md R25: the handler alone moves PC: by its length, or to the target for JMP and a taken BEQ; a skip moves
it by 1; the operand byte is the byte at PC + 1. -/
def Obligations.PcAdvanceRule : Prop :=
  (∀ (i : Instr) (s t : State), s.pc.toNat < 256 → exec i s = .next t →
    t.pc.toNat =
      match i with
      | .jmp d => d.toNat
      | .beq d => if s.zero = true then d.toNat else s.pc.toNat + 2
      | .not => s.pc.toNat + 1
      | .inx => s.pc.toNat + 1
      | .dex => s.pc.toNat + 1
      | .halt => s.pc.toNat + 1
      | _ => s.pc.toNat + 2) ∧
  (∀ (s : State) (b : Byte), Ready s → s.busRead s.pc.toNat = .ok b → Opcode.ofByte b = none →
    ∃ t, step s = .next t ∧ t.pc.toNat = s.pc.toNat + 1) ∧
  (∀ (s : State) (b v : Byte) (op : Opcode), Ready s → s.busRead s.pc.toNat = .ok b → Opcode.ofByte b = some op →
    op.hasOperand = true → s.busRead (s.pc.toNat + 1) = .ok v →
    step s = exec (op.instr v) (s.writeIR b))

/-- 10_state.md R31: HALT and the off-end halt clear `running`, a load that succeeds sets it, no other instruction
writes it and none reads it; while it is false a step does nothing; a run-time fault does not clear it. -/
def Obligations.RunningBitRule : Prop :=
  (∀ (i : Instr) (s t : State) (r : Bool), exec i s = .next t →
    exec i { s with running := r } = .next { t with running := if i = .halt then false else r }) ∧
  (∀ s t : State, Ready s → 256 ≤ s.pc.toNat → step s = .next t → t.running = false) ∧
  (∀ bytes offset (s t : State), s.loadProgram bytes offset = .ok t → t.running = true) ∧
  (∀ s t : State, s.running = false → step s = .next t → t = s) ∧
  (∀ (s t : State) (e : Fault), stepCall s = .raised e t → t.running = s.running)

/-- 10_state.md R21 to R23 (R23 is an inference of the spec): only the instructions of R21 write A and only those of R22
write X; what the instructions that do not read A, or X, do to everything else does not depend on it; so no value passes
between A and X. -/
def Obligations.RegistersReadAndWritten : Prop :=
  (∀ (i : Instr) (s t : State), exec i s = .next t →
    (writesA i = false → t.a = s.a) ∧ (writesX i = false → t.x = s.x)) ∧
  (∀ (i : Instr) (s t : State) (w : Byte), exec i s = .next t →
    i.opcode ∉ [.add, .sub, .and, .or, .xor, .not, .sta] →
    exec i { s with a := w } = .next { t with a := if writesA i = true then t.a else w }) ∧
  (∀ (i : Instr) (s t : State) (w : Byte), exec i s = .next t → i.opcode ∉ [.inx, .dex] →
    exec i { s with x := w } = .next { t with x := if writesX i = true then t.x else w }) ∧
  (∀ (i : Instr) (s t : State) (w : Byte), exec i s = .next t → i.opcode ∈ [.inx, .dex] →
    ∃ u, exec i { s with x := w } = .next u ∧ u.a = t.a ∧ u.carry = t.carry ∧ u.pc = t.pc ∧ u.mem = t.mem)

/-- 20_memory.md R66, an inference of the spec: the byte a STA stores, be it over its own bytes, is what the very next
fetch of that cell reads: where it is the next opcode, the next step's IR holds it. The fetch is read off IR, which every
opcode fetch writes, a skip's included, by the spec's choice D10 and which a faulting step keeps by its choice D4 (log
entry 13). -/
def Obligations.StoredByteIsFetched : Prop :=
  ∀ (s : State) (d : Byte), s.mem.wf → Ready s → s.busRead s.pc.toNat = .ok 0x03 →
    s.busRead (s.pc.toNat + 1) = .ok d →
    ∃ t, step s = .next t ∧ t.pc.toNat = s.pc.toNat + 2 ∧ t.busRead d.toNat = .ok s.a ∧
      (d.toNat = t.pc.toNat →
        ∃ u, (stepCall t = .returned u ∨ ∃ e, stepCall t = .raised e u) ∧ u.ir = s.a)

/-- 10_state.md R35 and R27: the log, and IR, have no effect on execution: runs of any length from states that differ in
them alone answer the same, up to them. -/
def Obligations.LogAndIRNeverInfluence : Prop :=
  ∀ (k : Nat) (s t : State), SameButLogAndIR s t →
    OutcomesAgree (Host.Core.run Sys2Proof.core k s) (Host.Core.run Sys2Proof.core k t)

/-- 10_state.md R35: appending to a log drops the oldest entries first: what is left is the last 15 of the log and the
new entries together. -/
def Obligations.LogKeepsLastEntries : Prop :=
  ∀ log entries : List LogEntry, log.length ≤ 15 →
    entries.foldl pushEntry log = (log ++ entries).drop ((log ++ entries).length - 15)

/-- 10_state.md R36: the snapshot shows A, X, PC, carry, zero, running and the log; reading it, reading memory and
assembling leave the CPU's state as it is. -/
def Obligations.HostReadsChangeNothing : Prop :=
  ∀ s : State,
    serve .snapshot s = .done s (.snapshot ⟨s.a, s.x, s.pc, s.carry, s.zero, s.running, s.log.map LogEntry.text⟩) ∧
    (∀ addr, (serve (.readMemory addr) s).state = some s) ∧
    (∀ lines, (serve (.compile lines) s).state = some s)

/-- 30_encoding.md R85 with 40_execution_cycle.md R102 (inferences of the spec and its choice D14): a machine that finds
no opcode with a handler from PC to the end of memory runs one step per byte and halts at 256, and not before, with every
register, flag and byte as it was. -/
def Obligations.UnknownBytesRunOffTheEnd : Prop :=
  ∀ s : State, Ready s → s.pc.toNat ≤ 256 →
    (∀ addr, s.pc.toNat ≤ addr → addr < 256 → ∃ b, s.busRead addr = .ok b ∧ Opcode.ofByte b = none) →
    (∃ t : State, Host.Core.run Sys2Proof.core (257 - s.pc.toNat) s = .next t ∧ t.runEnded = true ∧ t.pc.toNat = 256 ∧
      RegsSame s t ∧ MemSame s t) ∧
    (∀ k, k < 257 - s.pc.toNat → ∃ t : State, Host.Core.run Sys2Proof.core k s = .next t ∧ t.running = true)

/-! ### The assembler -/

/-- 45_assembler.md R175 and R176, with the spec's choices D23 (no empty digits, sign or digit separator) and D26 (no
`#` or `$`), log entry 14: after its prefix, if it has one, a literal's value is read digit by digit in its base; one
character that is no digit of the base, wherever it stands, or no digit at all, gives no value. -/
def Obligations.LiteralDigitsArePositional : Prop :=
  (∀ (mark : Token) (base : Nat), (mark, base) ∈ [(['0', 'x'], 16), (['0', 'X'], 16), (['%'], 2)] →
    parseLiteral mark = none ∧ (∀ c, parseLiteral (mark ++ [c]) = baseDigit base c) ∧
    ∀ (digits : List Char) (c : Char), digits ≠ [] →
      parseLiteral (mark ++ digits ++ [c]) =
        match parseLiteral (mark ++ digits), baseDigit base c with
        | some n, some d => some (n * base + d)
        | _, _ => none) ∧
  (parseLiteral [] = none ∧ (∀ c, parseLiteral [c] = baseDigit 10 c) ∧
    ∀ (digits : List Char) (c : Char), digits ≠ [] → (∀ e ∈ digits, (baseDigit 10 e).isSome = true) →
      ∃ n, parseLiteral digits = some n ∧ parseLiteral (digits ++ [c]) = (baseDigit 10 c).map (fun d => n * 10 + d)) ∧
  (∀ (t : Token) (c : Char), (∀ mark ∈ [['0', 'x'], ['0', 'X'], ['%']], ¬ mark <+: t) → c ∈ t → baseDigit 10 c = none →
    parseLiteral t = none) ∧
  (∀ n, n < 16 → baseDigit 16 (hexDigit n) = some n)

/-- 45_assembler.md R168: a line whose label's name is bound already ends the assembly with DuplicateLabel, whatever
lines follow; and the names are compared after case folding: lines that fold to the same assemble to the same. That
whole lines are folded is the spec's choice D17 (R162; log entries 10 and 14), that no later line's error comes first
its choice D24 (R181), that the error carries the name and the line counted from 1 its choice D25 (R182), and that
only a line's first token is a label its choice D21 (R165; log entry 14). -/
def Obligations.BoundLabelFails : Prop :=
  (∀ (before after : List (List Char)) (l : List Char) (t : Token) (rest : List Token) (p : PassOne) (name : Token),
    passOne 1 before PassOne.start = .ok p → tokenize l = t :: rest → labelName t = some name →
    (p.labels.lookup name).isSome = true →
    assemble (before ++ l :: after) = .error (.duplicateLabel name (before.length + 1))) ∧
  (∀ ls ls' : List (List Char),
    ls.map (fun l => l.flatMap upperChar) = ls'.map (fun l => l.flatMap upperChar) → assemble ls = assemble ls') ∧
  compile ["a: NOT", "A: HALT"] = .error (.duplicateLabel ['A'] 2)

/-- 45_assembler.md R172 to R174 and R177, for any tokens after the operand, which are ignored by the spec's choice D20, and
with the mnemonic, token and line that the errors carry by its choice D25 (log entry 14): a two-byte mnemonic with no
second token fails with MissingOperand; an operand that is neither a label nor a literal, or is one of more than 255,
fails with InvalidOperand; any other gives the opcode byte and the value. -/
def Obligations.OperandTokenRule : Prop :=
  ∀ (labels : LabelTable) (e : QueueEntry), e.op.hasOperand = true →
    (e.args = [] → passTwoEntry labels e = .error (.missingOperand (mnemonicOf e.op) e.line)) ∧
    ∀ (t : Token) (rest : List Token), e.args = t :: rest →
      (labels.lookup t = none → parseLiteral t = none → passTwoEntry labels e = .error (.invalidOperand t e.line)) ∧
      ∀ v, (labels.lookup t = some v ∨ (labels.lookup t = none ∧ parseLiteral t = some v)) →
        (255 < v → passTwoEntry labels e = .error (.invalidOperand t e.line)) ∧
        (v ≤ 255 → passTwoEntry labels e = .ok [e.op.byte, BitVec.ofNat 8 v])

/-- 45_assembler.md R161, R165, R168 and R170 (the address of a label alone on its line is an inference of the spec;
only the first token of a line is tested for a label by its choice D21, any name will do, the empty one included, by
its choice D28, and the counter is unbounded by its choice D22, log entry 14): after pass 1 a line's label is bound to
the address counter as the lines before it left it, and nothing else is bound; no name is bound twice, so that each
label stands for the address of a queued instruction or for the total length; the counter is the total length of the
queued instructions, and each has the length of those before it as its address. -/
def Obligations.LabelsBindAddresses : Prop :=
  ∀ (lines : List (List Char)) (p : PassOne), passOne 1 lines PassOne.start = .ok p →
    (∀ (before after : List (List Char)) (l : List Char) (t : Token) (rest : List Token) (name : Token) (p0 : PassOne),
      lines = before ++ l :: after → passOne 1 before PassOne.start = .ok p0 → tokenize l = t :: rest →
      labelName t = some name → p.labels.lookup name = some p0.addr) ∧
    (∀ name addr, (name, addr) ∈ p.labels →
      ∃ (before after : List (List Char)) (l : List Char) (t : Token) (rest : List Token) (p0 : PassOne),
        lines = before ++ l :: after ∧ passOne 1 before PassOne.start = .ok p0 ∧ tokenize l = t :: rest ∧
        labelName t = some name ∧ addr = p0.addr) ∧
    (p.labels.map Prod.fst).Nodup ∧
    (∀ name addr, (name, addr) ∈ p.labels → addr = p.addr ∨ ∃ e ∈ p.queue, e.addr = addr) ∧
    (∀ e ∈ p.queue, e.addr + e.op.length ≤ p.addr) ∧
    p.addr = (p.queue.map (fun e => e.op.length)).sum ∧
    (∀ (front back : List QueueEntry) (e : QueueEntry), p.queue = front ++ e :: back →
      e.addr = (front.map (fun f => f.op.length)).sum)

/-- 45_assembler.md R178 (its last clause is an inference of the spec): an assembled byte sequence holds, at each
queued address, the queued instruction with its resolved operand, wherever in the source the label stands that it
names (R179), and is as long as the address counter. That tokens after the operand change nothing is the spec's choice
D20, and that the length has no limit its choice D22 (log entry 14). -/
def Obligations.AssembledLayout : Prop :=
  ∀ (lines : List (List Char)) (out : List Byte), assemble lines = .ok out →
    ∃ p, passOne 1 lines PassOne.start = .ok p ∧ out.length = p.addr ∧
      ∀ e ∈ p.queue, ∃ v : Byte,
        decode (out.drop e.addr) = .ok (.instr (e.op.instr v), out.drop (e.addr + e.op.length)) ∧
        (e.op.hasOperand = true → ∃ t rest, e.args = t :: rest ∧ resolve p.labels t = some v.toNat)

/-- 45_assembler.md R187, an inference of the spec: load the output of `compile` at 0, and a step at a queued address
of that memory runs the queued instruction with its resolved operand. That tokens after the operand change nothing is
the spec's choice D20 (log entry 14). -/
def Obligations.LoadedAssemblyRuns : Prop :=
  ∀ (lines : List String) (out : List Byte) (s t : State), s.mem.wf → compile lines = .ok out →
    s.loadProgram out 0 = .ok t →
    ∃ p, passOne 1 (lines.map String.toList) PassOne.start = .ok p ∧
      ∀ e ∈ p.queue, ∃ v : Byte,
        (e.op.hasOperand = true → ∃ tok rest, e.args = tok :: rest ∧ resolve p.labels tok = some v.toNat) ∧
        ∀ u : State, Ready u → u.mem = t.mem → u.pc.toNat = e.addr →
          step u = exec (e.op.instr v) (u.writeIR e.op.byte)

/-- 30_encoding.md R89, an inference of the spec: the disassembly spelling of any sequence of instructions, one a
line, is accepted by the assembler and encodes back to the same bytes. That lines are upper-cased first, that no
length is too great and that the empty source gives the empty byte sequence are the spec's choices D17, D22 and D27
(log entry 14). -/
def Obligations.DisassemblyAssemblesBack : Prop :=
  ∀ is : List Instr, assemble (is.map disassemble) = .ok (encodeAll is)
end

