-- ==== Sys2Proof/Laws/Decode.lean ====
section
/-! SUPPORT. The laws of the opcode map and of the decoder. -/

namespace Sys2Proof

@[simp] theorem Opcode.ofByte_byte (op : Opcode) : Opcode.ofByte op.byte = some op := by
  cases op <;> decide

theorem Opcode.byte_of_ofByte {b : Byte} {op : Opcode} (h : Opcode.ofByte b = some op) : op.byte = b := by
  simpa using List.find?_some h

@[simp] theorem Opcode.instr_opcode (op : Opcode) (v : Byte) : (op.instr v).opcode = op := by
  cases op <;> rfl

@[simp] theorem Opcode.instr_operand (op : Opcode) (v : Byte) :
    (op.instr v).operand = if op.hasOperand then some v else none := by
  cases op <;> rfl

theorem Opcode.instr_length (op : Opcode) (v : Byte) : (op.instr v).length = op.length := by
  cases op <;> rfl

theorem Instr.length_eq_opcode (i : Instr) : i.length = i.opcode.length := by
  cases i <;> rfl

theorem Instr.operand_isSome (i : Instr) : i.operand.isSome = i.opcode.hasOperand := by
  cases i <;> rfl

theorem encode_length (i : Instr) : (encode i).length = i.length := by
  cases i <;> rfl

/-- The bytes of an instruction made from an opcode and an operand byte. -/
theorem encode_instr (op : Opcode) (v : Byte) :
    encode (op.instr v) = if op.hasOperand then [op.byte, v] else [op.byte] := by
  cases op <;> rfl

/-- What decoding an opcode byte can give: a skip of a byte with no handler, a one-byte instruction, a two-byte
instruction with the operand read, or the error of that read. -/
theorem decodeAt_cases {ε : Type} (b : Byte) (operand : Except ε Byte) :
    (Opcode.ofByte b = none ∧ decodeAt b operand = .ok (.skip b)) ∨
    (∃ op, Opcode.ofByte b = some op ∧ op.hasOperand = false ∧ decodeAt b operand = .ok (.instr (op.instr 0))) ∨
    (∃ op v, Opcode.ofByte b = some op ∧ op.hasOperand = true ∧ operand = .ok v ∧
      decodeAt b operand = .ok (.instr (op.instr v))) ∨
    (∃ op e, Opcode.ofByte b = some op ∧ op.hasOperand = true ∧ operand = .error e ∧
      decodeAt b operand = .error e) := by
  cases h : Opcode.ofByte b with
  | none => exact .inl ⟨rfl, by simp [decodeAt, h]⟩
  | some op =>
    cases ho : op.hasOperand with
    | false => exact .inr (.inl ⟨op, rfl, ho, by simp [decodeAt, h, ho]⟩)
    | true =>
      cases operand with
      | ok v => exact .inr (.inr (.inl ⟨op, v, rfl, ho, rfl, by simp [decodeAt, h, ho]⟩))
      | error e => exact .inr (.inr (.inr ⟨op, e, rfl, ho, rfl, by simp [decodeAt, h, ho]⟩))

end Sys2Proof
end

