-- ==== Sys2Proof/Laws/State.lean ====
section
/-! SUPPORT. One lemma for each field under each named update of the state, so that no proof unfolds an update. -/

namespace Sys2Proof.Machine

/-! ### `State.writeA` -/

@[simp] theorem State.writeA_a (s : State) (v : Byte) : (s.writeA v).a = v := rfl
@[simp] theorem State.writeA_x (s : State) (v : Byte) : (s.writeA v).x = s.x := rfl
@[simp] theorem State.writeA_pc (s : State) (v : Byte) : (s.writeA v).pc = s.pc := rfl
@[simp] theorem State.writeA_ir (s : State) (v : Byte) : (s.writeA v).ir = s.ir := rfl
@[simp] theorem State.writeA_carry (s : State) (v : Byte) : (s.writeA v).carry = s.carry := rfl
@[simp] theorem State.writeA_zero (s : State) (v : Byte) : (s.writeA v).zero = isZero v := rfl
@[simp] theorem State.writeA_running (s : State) (v : Byte) : (s.writeA v).running = s.running := rfl
@[simp] theorem State.writeA_mem (s : State) (v : Byte) : (s.writeA v).mem = s.mem := rfl
@[simp] theorem State.writeA_log (s : State) (v : Byte) : (s.writeA v).log = s.log := rfl
@[simp] theorem State.writeA_loaded (s : State) (v : Byte) : (s.writeA v).loaded = s.loaded := rfl
@[simp] theorem State.writeA_fault (s : State) (v : Byte) : (s.writeA v).fault = s.fault := rfl
@[simp] theorem State.writeA_draws (s : State) (v : Byte) : (s.writeA v).draws = s.draws := rfl
@[simp] theorem State.writeA_busRead (s : State) (v : Byte) (addr : Nat) : (s.writeA v).busRead addr = s.busRead addr := rfl

/-! ### `State.writeX` -/

@[simp] theorem State.writeX_a (s : State) (v : Byte) : (s.writeX v).a = s.a := rfl
@[simp] theorem State.writeX_x (s : State) (v : Byte) : (s.writeX v).x = v := rfl
@[simp] theorem State.writeX_pc (s : State) (v : Byte) : (s.writeX v).pc = s.pc := rfl
@[simp] theorem State.writeX_ir (s : State) (v : Byte) : (s.writeX v).ir = s.ir := rfl
@[simp] theorem State.writeX_carry (s : State) (v : Byte) : (s.writeX v).carry = s.carry := rfl
@[simp] theorem State.writeX_zero (s : State) (v : Byte) : (s.writeX v).zero = isZero v := rfl
@[simp] theorem State.writeX_running (s : State) (v : Byte) : (s.writeX v).running = s.running := rfl
@[simp] theorem State.writeX_mem (s : State) (v : Byte) : (s.writeX v).mem = s.mem := rfl
@[simp] theorem State.writeX_log (s : State) (v : Byte) : (s.writeX v).log = s.log := rfl
@[simp] theorem State.writeX_loaded (s : State) (v : Byte) : (s.writeX v).loaded = s.loaded := rfl
@[simp] theorem State.writeX_fault (s : State) (v : Byte) : (s.writeX v).fault = s.fault := rfl
@[simp] theorem State.writeX_draws (s : State) (v : Byte) : (s.writeX v).draws = s.draws := rfl
@[simp] theorem State.writeX_busRead (s : State) (v : Byte) (addr : Nat) : (s.writeX v).busRead addr = s.busRead addr := rfl

/-! ### `State.writeCarry` -/

@[simp] theorem State.writeCarry_a (s : State) (b : Bool) : (s.writeCarry b).a = s.a := rfl
@[simp] theorem State.writeCarry_x (s : State) (b : Bool) : (s.writeCarry b).x = s.x := rfl
@[simp] theorem State.writeCarry_pc (s : State) (b : Bool) : (s.writeCarry b).pc = s.pc := rfl
@[simp] theorem State.writeCarry_ir (s : State) (b : Bool) : (s.writeCarry b).ir = s.ir := rfl
@[simp] theorem State.writeCarry_carry (s : State) (b : Bool) : (s.writeCarry b).carry = b := rfl
@[simp] theorem State.writeCarry_zero (s : State) (b : Bool) : (s.writeCarry b).zero = s.zero := rfl
@[simp] theorem State.writeCarry_running (s : State) (b : Bool) : (s.writeCarry b).running = s.running := rfl
@[simp] theorem State.writeCarry_mem (s : State) (b : Bool) : (s.writeCarry b).mem = s.mem := rfl
@[simp] theorem State.writeCarry_log (s : State) (b : Bool) : (s.writeCarry b).log = s.log := rfl
@[simp] theorem State.writeCarry_loaded (s : State) (b : Bool) : (s.writeCarry b).loaded = s.loaded := rfl
@[simp] theorem State.writeCarry_fault (s : State) (b : Bool) : (s.writeCarry b).fault = s.fault := rfl
@[simp] theorem State.writeCarry_draws (s : State) (b : Bool) : (s.writeCarry b).draws = s.draws := rfl
@[simp] theorem State.writeCarry_busRead (s : State) (b : Bool) (addr : Nat) : (s.writeCarry b).busRead addr = s.busRead addr := rfl

/-! ### `State.advance` -/

@[simp] theorem State.advance_a (s : State) (n : Nat) : (s.advance n).a = s.a := rfl
@[simp] theorem State.advance_x (s : State) (n : Nat) : (s.advance n).x = s.x := rfl
@[simp] theorem State.advance_pc (s : State) (n : Nat) : (s.advance n).pc = s.pc + BitVec.ofNat 9 n := rfl
@[simp] theorem State.advance_ir (s : State) (n : Nat) : (s.advance n).ir = s.ir := rfl
@[simp] theorem State.advance_carry (s : State) (n : Nat) : (s.advance n).carry = s.carry := rfl
@[simp] theorem State.advance_zero (s : State) (n : Nat) : (s.advance n).zero = s.zero := rfl
@[simp] theorem State.advance_running (s : State) (n : Nat) : (s.advance n).running = s.running := rfl
@[simp] theorem State.advance_mem (s : State) (n : Nat) : (s.advance n).mem = s.mem := rfl
@[simp] theorem State.advance_log (s : State) (n : Nat) : (s.advance n).log = s.log := rfl
@[simp] theorem State.advance_loaded (s : State) (n : Nat) : (s.advance n).loaded = s.loaded := rfl
@[simp] theorem State.advance_fault (s : State) (n : Nat) : (s.advance n).fault = s.fault := rfl
@[simp] theorem State.advance_draws (s : State) (n : Nat) : (s.advance n).draws = s.draws := rfl
@[simp] theorem State.advance_busRead (s : State) (n : Nat) (addr : Nat) : (s.advance n).busRead addr = s.busRead addr := rfl

/-! ### `State.jump` -/

@[simp] theorem State.jump_a (s : State) (target : PCWord) : (s.jump target).a = s.a := rfl
@[simp] theorem State.jump_x (s : State) (target : PCWord) : (s.jump target).x = s.x := rfl
@[simp] theorem State.jump_pc (s : State) (target : PCWord) : (s.jump target).pc = target := rfl
@[simp] theorem State.jump_ir (s : State) (target : PCWord) : (s.jump target).ir = s.ir := rfl
@[simp] theorem State.jump_carry (s : State) (target : PCWord) : (s.jump target).carry = s.carry := rfl
@[simp] theorem State.jump_zero (s : State) (target : PCWord) : (s.jump target).zero = s.zero := rfl
@[simp] theorem State.jump_running (s : State) (target : PCWord) : (s.jump target).running = s.running := rfl
@[simp] theorem State.jump_mem (s : State) (target : PCWord) : (s.jump target).mem = s.mem := rfl
@[simp] theorem State.jump_log (s : State) (target : PCWord) : (s.jump target).log = s.log := rfl
@[simp] theorem State.jump_loaded (s : State) (target : PCWord) : (s.jump target).loaded = s.loaded := rfl
@[simp] theorem State.jump_fault (s : State) (target : PCWord) : (s.jump target).fault = s.fault := rfl
@[simp] theorem State.jump_draws (s : State) (target : PCWord) : (s.jump target).draws = s.draws := rfl
@[simp] theorem State.jump_busRead (s : State) (target : PCWord) (addr : Nat) : (s.jump target).busRead addr = s.busRead addr := rfl

/-! ### `State.stop` -/

@[simp] theorem State.stop_a (s : State) : s.stop.a = s.a := rfl
@[simp] theorem State.stop_x (s : State) : s.stop.x = s.x := rfl
@[simp] theorem State.stop_pc (s : State) : s.stop.pc = s.pc := rfl
@[simp] theorem State.stop_ir (s : State) : s.stop.ir = s.ir := rfl
@[simp] theorem State.stop_carry (s : State) : s.stop.carry = s.carry := rfl
@[simp] theorem State.stop_zero (s : State) : s.stop.zero = s.zero := rfl
@[simp] theorem State.stop_running (s : State) : s.stop.running = false := rfl
@[simp] theorem State.stop_mem (s : State) : s.stop.mem = s.mem := rfl
@[simp] theorem State.stop_log (s : State) : s.stop.log = s.log := rfl
@[simp] theorem State.stop_loaded (s : State) : s.stop.loaded = s.loaded := rfl
@[simp] theorem State.stop_fault (s : State) : s.stop.fault = s.fault := rfl
@[simp] theorem State.stop_draws (s : State) : s.stop.draws = s.draws := rfl
@[simp] theorem State.stop_busRead (s : State) (addr : Nat) : s.stop.busRead addr = s.busRead addr := rfl

/-! ### `State.writeIR` -/

@[simp] theorem State.writeIR_a (s : State) (b : Byte) : (s.writeIR b).a = s.a := rfl
@[simp] theorem State.writeIR_x (s : State) (b : Byte) : (s.writeIR b).x = s.x := rfl
@[simp] theorem State.writeIR_pc (s : State) (b : Byte) : (s.writeIR b).pc = s.pc := rfl
@[simp] theorem State.writeIR_ir (s : State) (b : Byte) : (s.writeIR b).ir = b := rfl
@[simp] theorem State.writeIR_carry (s : State) (b : Byte) : (s.writeIR b).carry = s.carry := rfl
@[simp] theorem State.writeIR_zero (s : State) (b : Byte) : (s.writeIR b).zero = s.zero := rfl
@[simp] theorem State.writeIR_running (s : State) (b : Byte) : (s.writeIR b).running = s.running := rfl
@[simp] theorem State.writeIR_mem (s : State) (b : Byte) : (s.writeIR b).mem = s.mem := rfl
@[simp] theorem State.writeIR_log (s : State) (b : Byte) : (s.writeIR b).log = s.log := rfl
@[simp] theorem State.writeIR_loaded (s : State) (b : Byte) : (s.writeIR b).loaded = s.loaded := rfl
@[simp] theorem State.writeIR_fault (s : State) (b : Byte) : (s.writeIR b).fault = s.fault := rfl
@[simp] theorem State.writeIR_draws (s : State) (b : Byte) : (s.writeIR b).draws = s.draws := rfl
@[simp] theorem State.writeIR_busRead (s : State) (b : Byte) (addr : Nat) : (s.writeIR b).busRead addr = s.busRead addr := rfl

/-! ### `State.appendLog` -/

@[simp] theorem State.appendLog_a (s : State) (es : List LogEntry) : (s.appendLog es).a = s.a := rfl
@[simp] theorem State.appendLog_x (s : State) (es : List LogEntry) : (s.appendLog es).x = s.x := rfl
@[simp] theorem State.appendLog_pc (s : State) (es : List LogEntry) : (s.appendLog es).pc = s.pc := rfl
@[simp] theorem State.appendLog_ir (s : State) (es : List LogEntry) : (s.appendLog es).ir = s.ir := rfl
@[simp] theorem State.appendLog_carry (s : State) (es : List LogEntry) : (s.appendLog es).carry = s.carry := rfl
@[simp] theorem State.appendLog_zero (s : State) (es : List LogEntry) : (s.appendLog es).zero = s.zero := rfl
@[simp] theorem State.appendLog_running (s : State) (es : List LogEntry) : (s.appendLog es).running = s.running := rfl
@[simp] theorem State.appendLog_mem (s : State) (es : List LogEntry) : (s.appendLog es).mem = s.mem := rfl
@[simp] theorem State.appendLog_log (s : State) (es : List LogEntry) : (s.appendLog es).log = es.foldl pushEntry s.log := rfl
@[simp] theorem State.appendLog_loaded (s : State) (es : List LogEntry) : (s.appendLog es).loaded = s.loaded := rfl
@[simp] theorem State.appendLog_fault (s : State) (es : List LogEntry) : (s.appendLog es).fault = s.fault := rfl
@[simp] theorem State.appendLog_draws (s : State) (es : List LogEntry) : (s.appendLog es).draws = s.draws + 1 := rfl
@[simp] theorem State.appendLog_busRead (s : State) (es : List LogEntry) (addr : Nat) : (s.appendLog es).busRead addr = s.busRead addr := rfl

/-! ### `State.logExecuted` -/

@[simp] theorem State.logExecuted_a (s : State) : s.logExecuted.a = s.a := rfl
@[simp] theorem State.logExecuted_x (s : State) : s.logExecuted.x = s.x := rfl
@[simp] theorem State.logExecuted_pc (s : State) : s.logExecuted.pc = s.pc := rfl
@[simp] theorem State.logExecuted_ir (s : State) : s.logExecuted.ir = s.ir := rfl
@[simp] theorem State.logExecuted_carry (s : State) : s.logExecuted.carry = s.carry := rfl
@[simp] theorem State.logExecuted_zero (s : State) : s.logExecuted.zero = s.zero := rfl
@[simp] theorem State.logExecuted_running (s : State) : s.logExecuted.running = s.running := rfl
@[simp] theorem State.logExecuted_mem (s : State) : s.logExecuted.mem = s.mem := rfl
@[simp] theorem State.logExecuted_log (s : State) : s.logExecuted.log = (openLines s.draws 0 (1 + Config.logExtra s.draws)).foldl pushEntry s.log := rfl
@[simp] theorem State.logExecuted_loaded (s : State) : s.logExecuted.loaded = s.loaded := rfl
@[simp] theorem State.logExecuted_fault (s : State) : s.logExecuted.fault = s.fault := rfl
@[simp] theorem State.logExecuted_draws (s : State) : s.logExecuted.draws = s.draws + 1 := rfl
@[simp] theorem State.logExecuted_busRead (s : State) (addr : Nat) : s.logExecuted.busRead addr = s.busRead addr := rfl

/-! ### `State.logMaybe` -/

@[simp] theorem State.logMaybe_a (s : State) : s.logMaybe.a = s.a := rfl
@[simp] theorem State.logMaybe_x (s : State) : s.logMaybe.x = s.x := rfl
@[simp] theorem State.logMaybe_pc (s : State) : s.logMaybe.pc = s.pc := rfl
@[simp] theorem State.logMaybe_ir (s : State) : s.logMaybe.ir = s.ir := rfl
@[simp] theorem State.logMaybe_carry (s : State) : s.logMaybe.carry = s.carry := rfl
@[simp] theorem State.logMaybe_zero (s : State) : s.logMaybe.zero = s.zero := rfl
@[simp] theorem State.logMaybe_running (s : State) : s.logMaybe.running = s.running := rfl
@[simp] theorem State.logMaybe_mem (s : State) : s.logMaybe.mem = s.mem := rfl
@[simp] theorem State.logMaybe_log (s : State) : s.logMaybe.log = (openLines s.draws 0 (Config.logExtra s.draws)).foldl pushEntry s.log := rfl
@[simp] theorem State.logMaybe_loaded (s : State) : s.logMaybe.loaded = s.loaded := rfl
@[simp] theorem State.logMaybe_fault (s : State) : s.logMaybe.fault = s.fault := rfl
@[simp] theorem State.logMaybe_draws (s : State) : s.logMaybe.draws = s.draws + 1 := rfl
@[simp] theorem State.logMaybe_busRead (s : State) (addr : Nat) : s.logMaybe.busRead addr = s.busRead addr := rfl

/-! ### `State.logSkip` -/

@[simp] theorem State.logSkip_a (s : State) : s.logSkip.a = s.a := rfl
@[simp] theorem State.logSkip_x (s : State) : s.logSkip.x = s.x := rfl
@[simp] theorem State.logSkip_pc (s : State) : s.logSkip.pc = s.pc := rfl
@[simp] theorem State.logSkip_ir (s : State) : s.logSkip.ir = s.ir := rfl
@[simp] theorem State.logSkip_carry (s : State) : s.logSkip.carry = s.carry := rfl
@[simp] theorem State.logSkip_zero (s : State) : s.logSkip.zero = s.zero := rfl
@[simp] theorem State.logSkip_running (s : State) : s.logSkip.running = s.running := rfl
@[simp] theorem State.logSkip_mem (s : State) : s.logSkip.mem = s.mem := rfl
@[simp] theorem State.logSkip_loaded (s : State) : s.logSkip.loaded = s.loaded := rfl
@[simp] theorem State.logSkip_fault (s : State) : s.logSkip.fault = s.fault := rfl
@[simp] theorem State.logSkip_draws (s : State) : s.logSkip.draws = s.draws + 1 := rfl
@[simp] theorem State.logSkip_busRead (s : State) (addr : Nat) : s.logSkip.busRead addr = s.busRead addr := rfl

/-! ### `State.skipUnknown` -/

@[simp] theorem State.skipUnknown_a (s : State) : s.skipUnknown.a = s.a := rfl
@[simp] theorem State.skipUnknown_x (s : State) : s.skipUnknown.x = s.x := rfl
@[simp] theorem State.skipUnknown_pc (s : State) : s.skipUnknown.pc = s.pc + 1 := rfl
@[simp] theorem State.skipUnknown_ir (s : State) : s.skipUnknown.ir = s.ir := rfl
@[simp] theorem State.skipUnknown_carry (s : State) : s.skipUnknown.carry = s.carry := rfl
@[simp] theorem State.skipUnknown_zero (s : State) : s.skipUnknown.zero = s.zero := rfl
@[simp] theorem State.skipUnknown_running (s : State) : s.skipUnknown.running = s.running := rfl
@[simp] theorem State.skipUnknown_mem (s : State) : s.skipUnknown.mem = s.mem := rfl
@[simp] theorem State.skipUnknown_log (s : State) : s.skipUnknown.log = s.logSkip.log := rfl
@[simp] theorem State.skipUnknown_loaded (s : State) : s.skipUnknown.loaded = s.loaded := rfl
@[simp] theorem State.skipUnknown_fault (s : State) : s.skipUnknown.fault = s.fault := rfl
@[simp] theorem State.skipUnknown_draws (s : State) : s.skipUnknown.draws = s.draws + 1 := rfl
@[simp] theorem State.skipUnknown_busRead (s : State) (addr : Nat) : s.skipUnknown.busRead addr = s.busRead addr := rfl

/-! ### `State.haltOffEnd` -/

@[simp] theorem State.haltOffEnd_a (s : State) : s.haltOffEnd.a = s.a := rfl
@[simp] theorem State.haltOffEnd_x (s : State) : s.haltOffEnd.x = s.x := rfl
@[simp] theorem State.haltOffEnd_pc (s : State) : s.haltOffEnd.pc = s.pc := rfl
@[simp] theorem State.haltOffEnd_ir (s : State) : s.haltOffEnd.ir = s.ir := rfl
@[simp] theorem State.haltOffEnd_carry (s : State) : s.haltOffEnd.carry = s.carry := rfl
@[simp] theorem State.haltOffEnd_zero (s : State) : s.haltOffEnd.zero = s.zero := rfl
@[simp] theorem State.haltOffEnd_running (s : State) : s.haltOffEnd.running = false := rfl
@[simp] theorem State.haltOffEnd_mem (s : State) : s.haltOffEnd.mem = s.mem := rfl
@[simp] theorem State.haltOffEnd_log (s : State) : s.haltOffEnd.log = s.logMaybe.log := rfl
@[simp] theorem State.haltOffEnd_loaded (s : State) : s.haltOffEnd.loaded = s.loaded := rfl
@[simp] theorem State.haltOffEnd_fault (s : State) : s.haltOffEnd.fault = s.fault := rfl
@[simp] theorem State.haltOffEnd_draws (s : State) : s.haltOffEnd.draws = s.draws + 1 := rfl
@[simp] theorem State.haltOffEnd_busRead (s : State) (addr : Nat) : s.haltOffEnd.busRead addr = s.busRead addr := rfl

end Sys2Proof.Machine
end

