-- ==== Sys2Proof/Laws/Memory.lean ====
section
/-! SUPPORT. The laws of the Memory and the Bus: what a cell reads after a write, and that every operation keeps the
canonical form. -/

namespace Sys2Proof.Machine

theorem cellAt_eq_unlisted_of_lt (a : Nat) (cells : List Host.Cell) (h : ∀ c ∈ cells, a < c.1) :
    cellAt a cells = unlistedCell := by
  induction cells with
  | nil => rfl
  | cons c rest ih =>
    have hc := h c (by simp)
    have : c.1 ≠ a := by omega
    simp only [cellAt, this, if_false]
    exact ih (fun d hd => h d (by simp [hd]))

theorem CellsCanonical.tail {c : Host.Cell} {rest : List Host.Cell} (h : CellsCanonical (c :: rest)) :
    CellsCanonical rest :=
  ⟨(List.pairwise_cons.mp h.1).2, fun d hd => h.2 d (by simp [hd])⟩

theorem CellsCanonical.head_lt {c : Host.Cell} {rest : List Host.Cell} (h : CellsCanonical (c :: rest)) :
    ∀ d ∈ rest, c.1 < d.1 :=
  (List.pairwise_cons.mp h.1).1

/-- An address of a cell list after a write is the written one or an address listed before. -/
theorem putCell_mem (a : Nat) (v : Byte) (cells : List Host.Cell) :
    ∀ c ∈ putCell a v cells, (c = (a, v) ∧ v ≠ unlistedCell) ∨ c ∈ cells := by
  induction cells with
  | nil =>
    intro c hc
    by_cases hv : v = unlistedCell <;> simp_all [putCell]
  | cons d rest ih =>
    intro c hc
    obtain ⟨k, w⟩ := d
    simp only [putCell] at hc
    split at hc
    · rcases List.mem_cons.mp hc with rfl | hc
      · simp
      · rcases ih c hc with h | h
        · exact .inl h
        · simp [h]
    · split at hc <;> split at hc <;> simp_all
      tauto

theorem putCell_canonical (a : Nat) (v : Byte) (cells : List Host.Cell) (ha : a < Config.memSize)
    (h : CellsCanonical cells) : CellsCanonical (putCell a v cells) := by
  refine ⟨?_, fun c hc => ?_⟩
  · induction cells with
    | nil => by_cases hv : v = unlistedCell <;> simp [putCell, hv]
    | cons d rest ih =>
      obtain ⟨k, w⟩ := d
      have hr := h.tail
      have hk : ∀ d ∈ rest, k < d.1 := h.head_lt
      simp only [putCell]
      split
      · rename_i hlt
        refine List.pairwise_cons.mpr ⟨fun c hc => ?_, ih hr⟩
        rcases putCell_mem a v rest c hc with ⟨rfl, _⟩ | hc
        · exact hlt
        · exact hk c hc
      · rename_i hlt
        by_cases hka : k = a
        · subst hka
          by_cases hv : v = unlistedCell
          · simpa [hv] using hr.1
          · simpa [hv] using And.intro (fun x y hxy => hk (x, y) hxy) hr.1
        · by_cases hv : v = unlistedCell
          · simpa [hv, hka] using h.1
          · simp only [hv, hka, if_false]
            refine List.pairwise_cons.mpr ⟨fun c hc => ?_, h.1⟩
            rcases List.mem_cons.mp hc with rfl | hc
            · show a < k
              omega
            · have := hk c hc
              show a < c.1
              omega
  · rcases putCell_mem a v cells c hc with ⟨rfl, hv⟩ | hc
    · exact ⟨ha, hv⟩
    · exact h.2 c hc

/-- A written cell reads as the byte written. -/
theorem cellAt_putCell_same (a : Nat) (v : Byte) (cells : List Host.Cell) (h : CellsCanonical cells) :
    cellAt a (putCell a v cells) = v := by
  induction cells with
  | nil => by_cases hv : v = unlistedCell <;> simp [putCell, cellAt, hv]
  | cons d rest ih =>
    obtain ⟨k, w⟩ := d
    have hk : ∀ d ∈ rest, k < d.1 := h.head_lt
    simp only [putCell]
    split
    · rename_i hlt
      have : k ≠ a := by omega
      simp [cellAt, this, ih h.tail]
    · rename_i hlt
      by_cases hv : v = unlistedCell
      · by_cases hka : k = a
        · subst hka
          simp only [hv, if_true]
          exact cellAt_eq_unlisted_of_lt _ _ hk
        · simp only [hv, hka, if_true, if_false]
          refine cellAt_eq_unlisted_of_lt _ _ (fun c hc => ?_)
          rcases List.mem_cons.mp hc with rfl | hc
          · show a < k
            omega
          · have := hk c hc
            omega
      · simp [hv, cellAt]

/-- A write leaves every other cell alone. -/
theorem cellAt_putCell_other (a b : Nat) (v : Byte) (cells : List Host.Cell) (hab : b ≠ a) :
    cellAt b (putCell a v cells) = cellAt b cells := by
  have hba : a ≠ b := fun e => hab e.symm
  induction cells with
  | nil => by_cases hv : v = unlistedCell <;> simp [putCell, cellAt, hv, hba]
  | cons d rest ih =>
    obtain ⟨k, w⟩ := d
    simp only [putCell]
    split
    · simp [cellAt, ih]
    · by_cases hka : k = a
      · subst hka
        by_cases hv : v = unlistedCell <;> simp [hv, cellAt, hba]
      · by_cases hv : v = unlistedCell <;> simp [hv, hka, cellAt, hba]

/-- A write of the Memory keeps the canonical form. -/
theorem Memory.write_wf {m m' : Memory} {addr value : Nat} (hm : m.wf) (h : m.write addr value = .ok m') :
    m'.wf := by
  simp only [Memory.write] at h
  split at h
  · rename_i ha
    cases h
    exact putCell_canonical _ _ _ ha hm
  · cases h

/-- The memory made from a function is in canonical form. -/
theorem Memory.ofFn_wf (f : Nat → Byte) : (Memory.ofFn f).wf := by
  constructor
  · refine List.Pairwise.filterMap _ (R := (· < ·)) ?_ List.pairwise_lt_range
    intro x y hxy c hc d hd
    split at hc <;> split at hd <;> simp_all
    cases hc
    cases hd
    exact hxy
  · intro c hc
    simp only [Memory.ofFn, List.mem_filterMap, List.mem_range] at hc
    obtain ⟨a, ha, hc⟩ := hc
    split at hc
    · cases hc
    · cases hc
      exact ⟨ha, by assumption⟩

/-- A byte of memory as the CPU reads it. -/
theorem State.busRead_eq (s : State) (addr : Nat) :
    s.busRead addr = if addr < Config.memSize then .ok (cellAt addr s.mem.cells)
      else .error (.outOfRange ⟨addr⟩) := rfl

/-- What a Bus write of the CPU does: it needs an address below 256, and changes memory alone, at that address. -/
theorem State.busWrite_eq (s : State) (addr value : Nat) :
    s.busWrite addr value =
      if addr < Config.memSize then
        .ok { s with mem := ⟨putCell addr (BitVec.ofNat 8 value) s.mem.cells⟩ }
      else .error (.outOfRange ⟨addr⟩) := by
  simp only [State.busWrite, State.bus, Bus.attach, Bus.write, Memory.write]
  by_cases h : addr < Config.memSize <;> simp [h]

theorem State.busStore_eq (s : State) (addr : Nat) (v : Byte) :
    s.busStore addr v =
      if addr < Config.memSize then { s with mem := ⟨putCell addr v s.mem.cells⟩ } else s := by
  simp only [State.busStore, State.busWrite_eq]
  by_cases h : addr < Config.memSize <;> simp [h]

/-- A Bus store changes memory alone and keeps its canonical form. -/
theorem State.busStore_spec (s : State) (addr : Nat) (v : Byte) :
    ∃ m, s.busStore addr v = { s with mem := m } ∧ (s.mem.wf → m.wf) := by
  rw [State.busStore_eq]
  split
  · rename_i h
    exact ⟨_, rfl, fun hm => putCell_canonical _ _ _ h hm⟩
  · exact ⟨s.mem, rfl, id⟩

/-- Bus stores change memory alone and keep its canonical form. -/
theorem State.busStoreAll_spec (bytes : List Byte) (addr : Nat) (s : State) :
    ∃ m, s.busStoreAll addr bytes = { s with mem := m } ∧ (s.mem.wf → m.wf) := by
  induction bytes generalizing addr s with
  | nil => exact ⟨s.mem, rfl, id⟩
  | cons b bs ih =>
    obtain ⟨m, h, hm⟩ := State.busStore_spec s addr b
    obtain ⟨m', h', hm'⟩ := ih (addr + 1) (s.busStore addr b)
    refine ⟨m', ?_, fun hs => hm' ?_⟩
    · rw [State.busStoreAll, h', h]
    · rw [h]
      exact hm hs

/-- What a cell reads after Bus stores: the byte stored there, or what it read before. -/
theorem State.busStoreAll_cellAt (bytes : List Byte) (addr : Nat) (s : State) (hs : s.mem.wf)
    (hfit : addr + bytes.length ≤ Config.memSize) (k : Nat) :
    cellAt k (s.busStoreAll addr bytes).mem.cells =
      if addr ≤ k ∧ k < addr + bytes.length then bytes.getD (k - addr) 0 else cellAt k s.mem.cells := by
  induction bytes generalizing addr s with
  | nil =>
    simp [State.busStoreAll]
  | cons b bs ih =>
    simp only [List.length_cons] at hfit ⊢
    have ha : addr < Config.memSize := by omega
    have hstep : s.busStore addr b = { s with mem := ⟨putCell addr b s.mem.cells⟩ } := by
      rw [State.busStore_eq, if_pos ha]
    have hwf : (s.busStore addr b).mem.wf := by
      rw [hstep]
      exact putCell_canonical _ _ _ ha hs
    rw [State.busStoreAll, ih (addr + 1) _ hwf (by omega)]
    by_cases h1 : addr + 1 ≤ k ∧ k < addr + 1 + bs.length
    · have h2 : addr ≤ k ∧ k < addr + (bs.length + 1) := by omega
      have h3 : k - addr = (k - (addr + 1)) + 1 := by omega
      rw [if_pos h1, if_pos h2, h3, List.getD_cons_succ]
    · rw [if_neg h1, hstep]
      by_cases h2 : k = addr
      · subst h2
        have h4 : k ≤ k ∧ k < k + (bs.length + 1) := by omega
        simp [h4, cellAt_putCell_same _ _ _ hs]
      · have h4 : ¬ (addr ≤ k ∧ k < addr + (bs.length + 1)) := by omega
        rw [if_neg h4]
        exact cellAt_putCell_other _ _ _ _ h2

end Sys2Proof.Machine
end

