-- ==== Sys2Proof/Laws/Ops.lean ====
section
/-! SUPPORT. For each shared operation, one lemma that says once everything it can do; and the inversion of the step:
every way one call of `step()` can go. -/

namespace Sys2Proof.Machine

/-! ### The log -/

theorem pushEntry_length (log : List LogEntry) (e : LogEntry) (h : log.length ≤ Config.logCapacity) :
    (pushEntry log e).length ≤ Config.logCapacity := by
  simp only [Config.logCapacity] at h ⊢
  unfold pushEntry
  split <;> simp only [List.length_append, List.length_drop, List.length_singleton, Config.logCapacity] at * <;> omega

theorem foldl_pushEntry_length (es : List LogEntry) (log : List LogEntry) (h : log.length ≤ Config.logCapacity) :
    (es.foldl pushEntry log).length ≤ Config.logCapacity := by
  induction es generalizing log with
  | nil => exact h
  | cons e es ih => exact ih _ (pushEntry_length log e h)

/-! ### Operands -/

/-- The operand fetch reads below 256 or raises OutOfRange with its address. -/
theorem State.fetchOperand_eq (s : State) :
    s.fetchOperand = if s.pc.toNat + 1 < Config.memSize then .ok (cellAt (s.pc.toNat + 1) s.mem.cells)
      else .error (.outOfRange ⟨s.pc.toNat + 1⟩) := rfl

/-- A two-byte handler runs, or the operand fetch ends it. -/
theorem withOperand_eq (s : State) (handler : MachineOutcome) :
    withOperand s handler = if s.pc.toNat + 1 < Config.memSize then handler
      else .fault (.outOfRange ⟨s.pc.toNat + 1⟩) := by
  rw [withOperand, State.fetchOperand_eq]
  split
  · rename_i h
    split at h
    · rename_i hlt
      simp only [if_pos hlt]
    · cases h
  · rename_i h
    split at h
    · cases h
    · rename_i hlt
      simp only [if_neg hlt]
      cases h
      rfl

@[simp] theorem withOperand_of_lt (s : State) (handler : MachineOutcome) (h : s.pc.toNat + 1 < 256) :
    withOperand s handler = handler := by
  rw [withOperand_eq, if_pos h]

theorem withOperand_next {s t : State} {handler : MachineOutcome} (h : withOperand s handler = .next t) :
    s.pc.toNat + 1 < 256 ∧ handler = .next t := by
  rw [withOperand_eq] at h
  split at h
  · exact ⟨by assumption, h⟩
  · cases h

/-! ### Raising an error -/

/-- What raising an error leaves: the record, and the log and its counter where it may log. -/
theorem State.raise_outOfRange (r : OutOfRange) (s : State) :
    s.raise (.outOfRange r) =
      { s with log := s.logMaybe.log, draws := s.draws + 1, fault := some r } := rfl

/-! ### The load -/

/-- The zero-fill changes memory alone, keeps its canonical form, and leaves every cell 0. -/
theorem State.zeroFill_spec (s : State) :
    ∃ m, s.zeroFill = { s with mem := m } ∧ (s.mem.wf → m.wf ∧ ∀ k, k < Config.memSize → cellAt k m.cells = 0) := by
  obtain ⟨m, h, hm⟩ := State.busStoreAll_spec (List.replicate Config.memSize 0) 0 s
  refine ⟨m, h, fun hs => ⟨hm hs, fun k hk => ?_⟩⟩
  have := State.busStoreAll_cellAt (List.replicate Config.memSize 0) 0 s hs (by simp) k
  rw [h] at this
  simpa [hk, List.getD_eq_getElem?_getD] using this

/-- Everything a load can do. -/
theorem State.loadProgram_cases (bytes : List Byte) (offset : Byte) (s : State) :
    (Config.memSize < offset.toNat + bytes.length ∧
      s.loadProgram bytes offset = .failed (.programTooLarge offset bytes.length) (State.unspecified s.draws s.fault)) ∨
    (offset.toNat + bytes.length ≤ Config.memSize ∧ ∃ m,
      s.loadProgram bytes offset = .ok
        { a := 0, x := 0, pc := BitVec.ofNat 9 offset.toNat, ir := 0, carry := false, zero := false, running := true,
          mem := m, log := [], loaded := true, fault := none, draws := s.draws } ∧
      (s.mem.wf → m.wf ∧ ∀ k, k < Config.memSize → cellAt k m.cells =
        if offset.toNat ≤ k ∧ k < offset.toNat + bytes.length then bytes.getD (k - offset.toNat) 0 else 0)) := by
  by_cases hfit : Config.memSize < offset.toNat + bytes.length
  · exact .inl ⟨hfit, by simp only [State.loadProgram, if_pos hfit]⟩
  · refine .inr ⟨by omega, ?_⟩
    obtain ⟨m₀, h₀, hm₀⟩ := State.zeroFill_spec s
    obtain ⟨m, h, hm⟩ := State.busStoreAll_spec bytes offset.toNat s.zeroFill
    refine ⟨m, ?_, fun hs => ⟨hm ?_, fun k hk => ?_⟩⟩
    · simp only [State.loadProgram, if_neg hfit, h]
      rw [h₀]
    · rw [h₀]
      exact (hm₀ hs).1
    · have hwf : s.zeroFill.mem.wf := by
        rw [h₀]
        exact (hm₀ hs).1
      have hz : cellAt k s.zeroFill.mem.cells = 0 := by
        rw [h₀]
        exact (hm₀ hs).2 k hk
      have := State.busStoreAll_cellAt bytes offset.toNat s.zeroFill hwf (by omega) k
      rw [h, hz] at this
      exact this

/-! ### The step -/

/-- Every way one call of `step()` can go (40_execution_cycle.md R108). -/
theorem stepCall_cases (s : State) :
    (s.loaded = false ∧ stepCall s = .refused .unloaded) ∨
    (∃ r, s.loaded = true ∧ s.fault = some r ∧ stepCall s = .raised (.outOfRange r) s) ∨
    (s.loaded = true ∧ s.fault = none ∧ s.running = false ∧ stepCall s = .returned s) ∨
    (Ready s ∧ 256 ≤ s.pc.toNat ∧ stepCall s = .returned s.haltOffEnd) ∨
    (∃ b, Ready s ∧ s.pc.toNat < 256 ∧ s.busRead s.pc.toNat = .ok b ∧ Opcode.ofByte b = none ∧
      stepCall s = .returned (s.writeIR b).skipUnknown) ∨
    (∃ b op, Ready s ∧ s.pc.toNat = 255 ∧ s.busRead s.pc.toNat = .ok b ∧ Opcode.ofByte b = some op ∧
      op.hasOperand = true ∧ stepCall s = raiseInStep (.outOfRange ⟨256⟩) (s.writeIR b)) ∨
    (∃ b op v, Ready s ∧ s.pc.toNat + op.length ≤ 256 ∧ s.busRead s.pc.toNat = .ok b ∧
      Opcode.ofByte b = some op ∧ (op.hasOperand = true → s.busRead (s.pc.toNat + 1) = .ok v) ∧
      stepCall s = runHandler (op.instr v) (s.writeIR b)) := by
  cases hl : s.loaded with
  | false => exact .inl ⟨rfl, by simp [stepCall, hl]⟩
  | true =>
  cases hf : s.fault with
  | some r => exact .inr (.inl ⟨r, rfl, rfl, by simp [stepCall, hl, hf]⟩)
  | none =>
  cases hr : s.running with
  | false => exact .inr (.inr (.inl ⟨rfl, rfl, rfl, by simp [stepCall, hl, hf, hr]⟩))
  | true =>
  have hready : Ready s := ⟨hl, hf, hr⟩
  have hcall : stepCall s = runningStep s := by simp [stepCall, hl, hf, hr]
  rw [hcall]
  by_cases hpc : 256 ≤ s.pc.toNat
  · exact .inr (.inr (.inr (.inl ⟨hready, hpc, by simp [runningStep, hpc]⟩)))
  have hlt : s.pc.toNat < 256 := by omega
  refine .inr (.inr (.inr (.inr ?_)))
  obtain ⟨b, hb⟩ : ∃ b, s.busRead s.pc.toNat = .ok b := ⟨_, by rw [State.busRead_eq, if_pos hlt]⟩
  have hstep : runningStep s = dispatchOpcode b (s.writeIR b) := by
    simp only [runningStep, State.fetchOpcode, hb]
    rw [if_neg (by omega)]
  rw [hstep]
  have hop : (s.writeIR b).fetchOperand = s.busRead (s.pc.toNat + 1) := rfl
  rcases decodeAt_cases b (s.writeIR b).fetchOperand with
    ⟨hn, hd⟩ | ⟨op, ho, hh, hd⟩ | ⟨op, v, ho, hh, hv, hd⟩ | ⟨op, e, ho, hh, he, hd⟩
  · exact .inl ⟨b, hready, hlt, hb, hn, by simp only [dispatchOpcode, hd]⟩
  · exact .inr (.inr ⟨b, op, 0, hready, by simp [Opcode.length, hh]; omega, hb, ho, by simp [hh],
      by simp only [dispatchOpcode, hd]⟩)
  · rw [hop] at hv
    have h1 : s.pc.toNat + 1 < 256 := by
      rw [State.busRead_eq] at hv
      split at hv
      · assumption
      · cases hv
    exact .inr (.inr ⟨b, op, v, hready, by simp [Opcode.length, hh]; omega, hb, ho, fun _ => hv,
      by simp only [dispatchOpcode, hd]⟩)
  · rw [hop, State.busRead_eq] at he
    split at he
    · cases he
    · rename_i h1
      have h2 : s.pc.toNat = 255 := by
        simp only [Config.memSize] at h1
        omega
      cases he
      refine .inr (.inl ⟨b, op, hready, h2, hb, ho, hh, ?_⟩)
      simp only [dispatchOpcode, hd, h2]

/-! ### Runs -/

/-- A run whose first step answers a next state goes on from it. -/
theorem run_succ_of_next {s t : State} (h : step s = .next t) (k : Nat) :
    Host.Core.run Sys2Proof.core (k + 1) s = Host.Core.run Sys2Proof.core k t := by
  have hs : Sys2Proof.core.step s = .next t := h
  simp only [Host.Core.run, hs]

/-- A run whose first step faults ends there. -/
theorem run_succ_of_fault {s : State} {e : Fault} (h : step s = .fault e) (k : Nat) :
    Host.Core.run Sys2Proof.core (k + 1) s = .fault e := by
  have hs : Sys2Proof.core.step s = .fault e := h
  simp only [Host.Core.run, hs]

/-- A run whose first step is refused ends there. -/
theorem run_succ_of_refused {s : State} {r : Refusal} (h : step s = .refused r) (k : Nat) :
    Host.Core.run Sys2Proof.core (k + 1) s = .refused r := by
  have hs : Sys2Proof.core.step s = .refused r := h
  simp only [Host.Core.run, hs]

end Sys2Proof.Machine
end

