-- ==== Sys2Proof/Laws/Exec.lean ====
section
/-! SUPPORT. What `exec` answers for each instruction, as one equation over the named updates: the next state, or the
error of the operand fetch. -/

namespace Sys2Proof.Machine

theorem exec_lda_eq (v : Byte) (s : State) :
    exec (.lda v) s = if s.pc.toNat + 1 < Config.memSize then .next ((s.writeA v).advance 2).logExecuted
      else .fault (.outOfRange ⟨s.pc.toNat + 1⟩) := by
  rw [exec, execLda, withOperand_eq]
  rfl

theorem exec_add_eq (v : Byte) (s : State) :
    exec (.add v) s = if s.pc.toNat + 1 < Config.memSize then .next (((s.writeCarry (addCarry s.a v)).writeA (wrapAdd s.a v)).advance 2).logExecuted
      else .fault (.outOfRange ⟨s.pc.toNat + 1⟩) := by
  rw [exec, execAdd, withOperand_eq]
  rfl

theorem exec_sta_eq (d : Byte) (s : State) :
    exec (.sta d) s = if s.pc.toNat + 1 < Config.memSize then .next (({ s with mem := ⟨putCell d.toNat s.a s.mem.cells⟩ } : State).advance 2).logExecuted
      else .fault (.outOfRange ⟨s.pc.toNat + 1⟩) := by
  rw [exec, execSta, withOperand_eq, State.busWrite_eq, if_pos (show directAddress d < Config.memSize from d.isLt)]
  simp [directAddress]

theorem exec_jmp_eq (d : Byte) (s : State) :
    exec (.jmp d) s = if s.pc.toNat + 1 < Config.memSize then .next (s.jump (absoluteTarget d)).logExecuted
      else .fault (.outOfRange ⟨s.pc.toNat + 1⟩) := by
  rw [exec, execJmp, withOperand_eq]

theorem exec_sub_eq (v : Byte) (s : State) :
    exec (.sub v) s = if s.pc.toNat + 1 < Config.memSize then .next (((s.writeCarry (subBorrow s.a v)).writeA (wrapSub s.a v)).advance 2).logExecuted
      else .fault (.outOfRange ⟨s.pc.toNat + 1⟩) := by
  rw [exec, execSub, withOperand_eq]
  rfl

theorem exec_beq_eq (d : Byte) (s : State) :
    exec (.beq d) s = if s.pc.toNat + 1 < Config.memSize then .next (if s.zero then s.jump (absoluteTarget d) else s.advance 2).logExecuted
      else .fault (.outOfRange ⟨s.pc.toNat + 1⟩) := by
  rw [exec, execBeq, withOperand_eq]

theorem exec_and_eq (v : Byte) (s : State) :
    exec (.and v) s = if s.pc.toNat + 1 < Config.memSize then .next ((s.writeA (s.a &&& v)).advance 2).logExecuted
      else .fault (.outOfRange ⟨s.pc.toNat + 1⟩) := by
  rw [exec, execAnd, withOperand_eq]
  rfl

theorem exec_or_eq (v : Byte) (s : State) :
    exec (.or v) s = if s.pc.toNat + 1 < Config.memSize then .next ((s.writeA (s.a ||| v)).advance 2).logExecuted
      else .fault (.outOfRange ⟨s.pc.toNat + 1⟩) := by
  rw [exec, execOr, withOperand_eq]
  rfl

theorem exec_xor_eq (v : Byte) (s : State) :
    exec (.xor v) s = if s.pc.toNat + 1 < Config.memSize then .next ((s.writeA (s.a ^^^ v)).advance 2).logExecuted
      else .fault (.outOfRange ⟨s.pc.toNat + 1⟩) := by
  rw [exec, execXor, withOperand_eq]
  rfl

theorem exec_not_eq (s : State) :
    exec .not s = .next ((s.writeA (~~~ s.a)).advance 1).logExecuted := rfl

theorem exec_ldx_eq (v : Byte) (s : State) :
    exec (.ldx v) s = if s.pc.toNat + 1 < Config.memSize then .next ((s.writeX v).advance 2).logExecuted
      else .fault (.outOfRange ⟨s.pc.toNat + 1⟩) := by
  rw [exec, execLdx, withOperand_eq]
  rfl

theorem exec_inx_eq (s : State) :
    exec .inx s = .next ((s.writeX (wrapAdd s.x 1)).advance 1).logExecuted := rfl

theorem exec_dex_eq (s : State) :
    exec .dex s = .next ((s.writeX (wrapSub s.x 1)).advance 1).logExecuted := rfl

theorem exec_halt_eq (s : State) :
    exec .halt s = .next (s.stop.advance 1).logExecuted := rfl

/-- An instruction whose bytes all lie below 256 completes. -/
theorem exec_completes (i : Instr) (s : State) (h : s.pc.toNat + i.length ≤ Config.memSize) :
    ∃ t, exec i s = .next t := by
  have two : i.length = 2 → s.pc.toNat + 1 < Config.memSize := fun e => by omega
  cases i
  case not => exact ⟨_, exec_not_eq s⟩
  case inx => exact ⟨_, exec_inx_eq s⟩
  case dex => exact ⟨_, exec_dex_eq s⟩
  case halt => exact ⟨_, exec_halt_eq s⟩
  case lda v => exact ⟨_, (exec_lda_eq v s).trans (if_pos (two rfl))⟩
  case add v => exact ⟨_, (exec_add_eq v s).trans (if_pos (two rfl))⟩
  case sta d => exact ⟨_, (exec_sta_eq d s).trans (if_pos (two rfl))⟩
  case jmp d => exact ⟨_, (exec_jmp_eq d s).trans (if_pos (two rfl))⟩
  case sub v => exact ⟨_, (exec_sub_eq v s).trans (if_pos (two rfl))⟩
  case beq d => exact ⟨_, (exec_beq_eq d s).trans (if_pos (two rfl))⟩
  case and v => exact ⟨_, (exec_and_eq v s).trans (if_pos (two rfl))⟩
  case or v => exact ⟨_, (exec_or_eq v s).trans (if_pos (two rfl))⟩
  case xor v => exact ⟨_, (exec_xor_eq v s).trans (if_pos (two rfl))⟩
  case ldx v => exact ⟨_, (exec_ldx_eq v s).trans (if_pos (two rfl))⟩

end Sys2Proof.Machine
end

