-- ==== Sys2Proof/Laws/PerInstr.lean ====
section
/-! SUPPORT. Facts about the syntax of every instruction, one lemma for each constructor. -/

namespace Sys2Proof.Laws

/-- The instruction is the one its own row of the opcode map makes from its operand byte, and its length is the row's
(30_encoding.md R84, 45_assembler.md R166). -/
def OpcodeRow.Statement (i : Instr) : Prop :=
  i = i.opcode.instr (i.operand.getD 0) ∧ i.operand.isSome = i.opcode.hasOperand ∧ i.length = i.opcode.length

theorem OpcodeRow.lda (v : Byte) : OpcodeRow.Statement (.lda v) := ⟨rfl, rfl, rfl⟩
theorem OpcodeRow.add (v : Byte) : OpcodeRow.Statement (.add v) := ⟨rfl, rfl, rfl⟩
theorem OpcodeRow.sta (d : Byte) : OpcodeRow.Statement (.sta d) := ⟨rfl, rfl, rfl⟩
theorem OpcodeRow.jmp (d : Byte) : OpcodeRow.Statement (.jmp d) := ⟨rfl, rfl, rfl⟩
theorem OpcodeRow.sub (v : Byte) : OpcodeRow.Statement (.sub v) := ⟨rfl, rfl, rfl⟩
theorem OpcodeRow.beq (d : Byte) : OpcodeRow.Statement (.beq d) := ⟨rfl, rfl, rfl⟩
theorem OpcodeRow.and (v : Byte) : OpcodeRow.Statement (.and v) := ⟨rfl, rfl, rfl⟩
theorem OpcodeRow.or (v : Byte) : OpcodeRow.Statement (.or v) := ⟨rfl, rfl, rfl⟩
theorem OpcodeRow.xor (v : Byte) : OpcodeRow.Statement (.xor v) := ⟨rfl, rfl, rfl⟩
theorem OpcodeRow.not : OpcodeRow.Statement .not := ⟨rfl, rfl, rfl⟩
theorem OpcodeRow.ldx (v : Byte) : OpcodeRow.Statement (.ldx v) := ⟨rfl, rfl, rfl⟩
theorem OpcodeRow.inx : OpcodeRow.Statement .inx := ⟨rfl, rfl, rfl⟩
theorem OpcodeRow.dex : OpcodeRow.Statement .dex := ⟨rfl, rfl, rfl⟩
theorem OpcodeRow.halt : OpcodeRow.Statement .halt := ⟨rfl, rfl, rfl⟩

end Sys2Proof.Laws
end

