-- ==== Sys2Proof/Tests/Slice0.lean ====
section
/-! SUPPORT. Tests. The expected results are those of spec/95_test_vectors.md (S, V, P numbers), of the encoding tables of
spec/30_encoding.md, or worked by hand from the rule named; and, for each statement with hypotheses, a witness that meets
them. -/

namespace Sys2Proof.Machine.Tests

/-! ### Helpers -/

/-- The reset machine with the given cells and PC. -/
def machineAt (pc : Nat) (cells : List Host.Cell) : State :=
  { State.reset with pc := BitVec.ofNat 9 pc, mem := ⟨cells⟩ }

def nextOf : MachineOutcome → Option State
  | .next s => some s
  | .fault _ => none
  | .refused _ => none

def faultOf : MachineOutcome → Option Fault
  | .next _ => none
  | .fault e => some e
  | .refused _ => none

def refusalOf : MachineOutcome → Option Refusal
  | .next _ => none
  | .fault _ => none
  | .refused r => some r

/-- The registers and flags a vector of 95_test_vectors.md shows. -/
structure View where
  a : Byte
  x : Byte
  pc : PCWord
  carry : Bool
  zero : Bool
  running : Bool
  deriving DecidableEq, Repr

def view (s : State) : View :=
  ⟨s.a, s.x, s.pc, s.carry, s.zero, s.running⟩

def stepView (s : State) : Option View :=
  (nextOf (step s)).map view

def loadedState : LoadResult → Option State
  | .ok s => some s
  | .failed _ _ => none

/-! ### WellFormed: what each check refuses -/

theorem test_fitsAt_refuses_two_bytes_at_255 : (Instr.lda 0).fitsAt 255 = false := by decide
theorem test_fitsAt_takes_one_byte_at_255 : Instr.not.fitsAt 255 = true := by decide
theorem test_fitsAt_refuses_256 : Instr.not.fitsAt 256 = false := by decide
theorem test_loadFits_refuses_V65 : loadFits [0x01, 0x02] 0xFF = false := by decide
theorem test_loadFits_takes_V64 : loadFits [0x01, 0x02] 0xFE = true := by decide
theorem test_wellFormed_takes_every_operand : (Instr.sta 0xFF).wellFormed = true := by decide

/-! ### Decoding: each row's bytes written out (30_encoding.md R82, R84) -/

theorem test_decode_lda : decode [0b00000001, 0b10100101] = .ok (.instr (.lda 0xA5), []) := by decide
theorem test_decode_add : decode [0b00000010, 0b00001010] = .ok (.instr (.add 0x0A), []) := by decide
theorem test_decode_sta : decode [0b00000011, 0b10000000] = .ok (.instr (.sta 0x80), []) := by decide
theorem test_decode_jmp : decode [0b00000100, 0b00000010] = .ok (.instr (.jmp 0x02), []) := by decide
theorem test_decode_sub : decode [0b00000101, 0b00010100] = .ok (.instr (.sub 0x14), []) := by decide
theorem test_decode_beq : decode [0b00000110, 0b00000110] = .ok (.instr (.beq 0x06), []) := by decide
theorem test_decode_and : decode [0b00000111, 0b00001111] = .ok (.instr (.and 0x0F), []) := by decide
theorem test_decode_or : decode [0b00001000, 0b11110000] = .ok (.instr (.or 0xF0), []) := by decide
theorem test_decode_xor : decode [0b00001001, 0b00001100] = .ok (.instr (.xor 0x0C), []) := by decide
theorem test_decode_not : decode [0b00001010, 0b11111111] = .ok (.instr .not, [0xFF]) := by decide
theorem test_decode_ldx : decode [0b00001011, 0b00000011] = .ok (.instr (.ldx 0x03), []) := by decide
theorem test_decode_inx : decode [0b00001100] = .ok (.instr .inx, []) := by decide
theorem test_decode_dex : decode [0b00001101] = .ok (.instr .dex, []) := by decide
theorem test_decode_halt : decode [0b11111111] = .ok (.instr .halt, []) := by decide
theorem test_decode_skip_0E : decode [0x0E, 0x0C] = .ok (.skip 0x0E, [0x0C]) := by decide
theorem test_decode_operand_missing : decode [0x01] = .error (.operandMissing 0x01) := by decide
theorem test_decode_no_byte : decode [] = .error .noByte := by decide
theorem test_decodeAll_P5 : decodeAll [0x0E, 0x0C, 0x01] = [.whole (.skip 0x0E), .whole (.instr .inx), .cut 0x01] := by
  decide
theorem test_decodeTableWord_beq : decodeTableWord 16 0x0606 = some (.beq 0x06) := by decide
theorem test_decodeTableWord_short : decodeTableWord 8 0xFF01 = some (.lda 0x00) := by decide
theorem test_decodeTableWord_unknown : decodeTableWord 8 0x00 = none := by decide

/-! ### Memory and Bus (20_memory.md R50 to R54) -/

theorem test_write_masks : (match (⟨[]⟩ : Memory).write 0x80 0x12A with | .ok m => m.cells | .error _ => []) =
    [(0x80, 0x2A)] := by decide
theorem test_write_zero_removes : (match (⟨[(3, 7), (5, 9)]⟩ : Memory).write 3 0 with | .ok m => m.cells | .error _ => []) =
    [(5, 9)] := by decide
theorem test_read_256_fails : (⟨[]⟩ : Memory).read 256 = .error (.outOfRange ⟨256⟩) := by decide
theorem test_bus_unattached : Bus.unattached.read 0 = .error .notAttached := by decide

/-! ### One step from memory: the vectors of 95_test_vectors.md -/

theorem test_lda_V1 : stepView { machineAt 0x10 [(0x10, 0x01)] with a := 0x37, carry := true, zero := true } =
    some ⟨0x00, 0, 0x12, true, true, true⟩ := by decide
theorem test_lda_V9 : faultOf (step (machineAt 0xFF [(0xFF, 0x01)])) = some (.outOfRange ⟨256⟩) := by decide
theorem test_sta_V6 : (nextOf (step { machineAt 0x09 [(0x09, 0x03), (0x0A, 0x80)] with a := 0x2A })).map
    (fun t => (view t, t.busRead 0x80, t.busRead 0x09)) =
    some (⟨0x2A, 0, 0x0B, false, false, true⟩, .ok 0x2A, .ok 0x03) := by decide
theorem test_sta_V8 : (nextOf (step { machineAt 0x0A [(0x0A, 0x03), (0x0B, 0x0B)] with a := 0x55 })).map
    (fun t => (t.pc, t.busRead 0x0B)) = some (0x0C, .ok 0x55) := by decide
theorem test_ldx_V4 : stepView { machineAt 0x00 [(0x00, 0x0B)] with x := 0x07 } =
    some ⟨0, 0x00, 0x02, false, true, true⟩ := by decide
theorem test_ldx_V5 : stepView { machineAt 0x02 [(0x02, 0x0B), (0x03, 0x01)] with zero := true } =
    some ⟨0x00, 0x01, 0x04, false, false, true⟩ := by decide
theorem test_add_V14 : stepView { machineAt 0 [(0, 0x02), (1, 0x01)] with a := 0xFF } =
    some ⟨0x00, 0, 0x02, true, true, true⟩ := by decide
theorem test_add_V17 : stepView { machineAt 0 [(0, 0x02), (1, 0xFE)] with a := 0x01, carry := true } =
    some ⟨0xFF, 0, 0x02, false, false, true⟩ := by decide
theorem test_sub_V22 : stepView { machineAt 0 [(0, 0x05), (1, 0x05)] with a := 0x03 } =
    some ⟨0xFE, 0, 0x02, true, false, true⟩ := by decide
theorem test_sub_V19 : stepView { machineAt 0 [(0, 0x05), (1, 0x14)] with a := 0x14, carry := true } =
    some ⟨0x00, 0, 0x02, false, true, true⟩ := by decide
theorem test_inx_V27 : stepView { machineAt 0x05 [(0x05, 0x0C)] with x := 0xFF, carry := true } =
    some ⟨0, 0x00, 0x06, true, true, true⟩ := by decide
theorem test_inx_V33 : stepView (machineAt 0xFF [(0xFF, 0x0C)]) = some ⟨0, 0x01, 0x100, false, false, true⟩ := by decide
theorem test_dex_V30 : stepView { machineAt 0x05 [(0x05, 0x0D)] with carry := true } =
    some ⟨0, 0xFF, 0x06, true, false, true⟩ := by decide
theorem test_dex_V31 : stepView { machineAt 0x05 [(0x05, 0x0D)] with x := 0x01 } =
    some ⟨0, 0x00, 0x06, false, true, true⟩ := by decide
theorem test_jmp_V34 : stepView { machineAt 0x10 [(0x10, 0x04), (0x11, 0x20)] with carry := true, zero := true } =
    some ⟨0, 0, 0x20, true, true, true⟩ := by decide
theorem test_beq_V36 : stepView { machineAt 0x02 [(0x02, 0x06), (0x03, 0x06)] with zero := true } =
    some ⟨0, 0, 0x06, false, true, true⟩ := by decide
theorem test_beq_V38 : stepView (machineAt 0xFE [(0xFE, 0x06)]) = some ⟨0, 0, 0x100, false, false, true⟩ := by decide
theorem test_halt_V40 : stepView { machineAt 0x04 [(0x04, 0xFF)] with a := 0x0F } =
    some ⟨0x0F, 0, 0x05, false, false, false⟩ := by decide
theorem test_halt_V42 : stepView (machineAt 0xFF [(0xFF, 0xFF)]) = some ⟨0, 0, 0x100, false, false, false⟩ := by decide
theorem test_and_V46 : stepView { machineAt 0 [(0, 0x07), (1, 0x0F)] with a := 0x2C, carry := true } =
    some ⟨0x0C, 0, 0x02, true, false, true⟩ := by decide
theorem test_and_V44 : stepView { machineAt 0 [(0, 0x07), (1, 0x0F)] with a := 0xF0, carry := true } =
    some ⟨0x00, 0, 0x02, true, true, true⟩ := by decide
theorem test_or_V49 : stepView { machineAt 0 [(0, 0x08), (1, 0x80)] with a := 0x01, carry := true } =
    some ⟨0x81, 0, 0x02, true, false, true⟩ := by decide
theorem test_or_V47 : stepView { machineAt 0 [(0, 0x08)] with carry := true } =
    some ⟨0x00, 0, 0x02, true, true, true⟩ := by decide
theorem test_xor_V51 : stepView { machineAt 0 [(0, 0x09), (1, 0x0F)] with a := 0xFF, carry := true } =
    some ⟨0xF0, 0, 0x02, true, false, true⟩ := by decide
theorem test_xor_V50 : stepView { machineAt 0 [(0, 0x09), (1, 0x55)] with a := 0x55, carry := true } =
    some ⟨0x00, 0, 0x02, true, true, true⟩ := by decide
theorem test_not_V55 : stepView { machineAt 0x08 [(0x08, 0x0A)] with a := 0x5A } =
    some ⟨0xA5, 0, 0x09, false, false, true⟩ := by decide
theorem test_not_V54 : stepView { machineAt 0x08 [(0x08, 0x0A)] with a := 0xFF } =
    some ⟨0x00, 0, 0x09, false, true, true⟩ := by decide

theorem test_skip_V57 : (nextOf (step { machineAt 0x03 [(0x03, 0x0E)] with carry := true, zero := true })).map
    (fun t => (view t, t.ir)) = some (⟨0, 0, 0x04, true, true, true⟩, 0x0E) := by decide
theorem test_skip_V59 : stepView (machineAt 0xFF [(0xFF, 0x80)]) = some ⟨0, 0, 0x100, false, false, true⟩ := by decide
theorem test_off_end_V60 : stepView (machineAt 0x100 []) = some ⟨0, 0, 0x100, false, false, false⟩ := by decide
theorem test_halted_V41 : stepView { machineAt 0x05 [] with running := false } =
    some ⟨0, 0, 0x05, false, false, false⟩ := by decide
theorem test_sticky_V61 : faultOf (step { machineAt 0xFF [] with fault := some ⟨256⟩ }) = some (.outOfRange ⟨256⟩) := by
  decide
theorem test_unloaded_V62 : refusalOf (step { machineAt 0 [] with loaded := false }) = some .unloaded := by decide
theorem test_fault_state_P6 : (match stepCall (machineAt 0xFF [(0xFF, 0x01)]) with
    | .raised _ t => some (view t, t.ir, t.fault) | .returned _ => none | .refused _ => none) =
    some (⟨0, 0, 0xFF, false, false, true⟩, 0x01, some ⟨256⟩) := by decide

/-! ### Load, fetch word, log -/

theorem test_load_V64 : (loadedState (State.reset.loadProgram [0x01, 0x02] 0xFE)).map (fun t => (t.mem.cells, t.pc)) =
    some ([(0xFE, 0x01), (0xFF, 0x02)], 0xFE) := by decide +kernel
theorem test_load_V65 : (loadedState (State.reset.loadProgram [0x01, 0x02] 0xFF)).isNone = true := by decide +kernel
theorem test_load_V70 : loadedState ({ machineAt 0x33 [(1, 1), (2, 2)] with
      a := 7, x := 9, ir := 5, carry := true, zero := true, running := false, fault := some ⟨256⟩ }.loadProgram [0x0A] 0x40) =
    some (machineAt 0x40 [(0x40, 0x0A)]) := by decide +kernel
theorem test_withFetchWord_add : stepView { State.reset.withFetchWord 16 0xFA02 with a := 0x0A } =
    some ⟨0x04, 0, 0x02, true, false, true⟩ := by decide
theorem test_pushEntry_evicts_oldest : (pushEntry (.unknownOpcode :: openLines 0 0 14) (.line 1 0)) =
    openLines 0 0 14 ++ [.line 1 0] := by decide
theorem test_snapshot_V56 : (State.snapshot { State.reset with log := [.unknownOpcode] }).log = ["unknown opcode"] := by
  decide

/-! ### The assembler (45_assembler.md; 95_test_vectors.md) -/

theorem test_literal_V75 : parseLiteral "0X1f".toList = some 31 := by decide
theorem test_literal_V74 : parseLiteral "0xZZ".toList = none := by decide
theorem test_literal_V81 : parseLiteral "007".toList = some 7 := by decide
theorem test_literal_V82 : parseLiteral "%11111111".toList = some 255 := by decide
theorem test_literal_V83 : parseLiteral "1_0".toList = none := by decide
theorem test_compile_V89 : compile ["LDA 0", "BEQ LOOP_END", "ADD 1", "LOOP_END: HALT"] =
    .ok [0x01, 0x00, 0x06, 0x06, 0x02, 0x01, 0xFF] := by decide
theorem test_compile_V95 : compile ["LDA 256"] = .error (.invalidOperand "256".toList 1) := by decide
theorem test_compile_V98 : compile ["LDA", "FOO"] = .error (.unknownInstruction "FOO".toList 2) := by decide
theorem test_compile_V99 : compile ["LOOP:INX", "JMP LOOP"] = .ok [0x0C, 0x04, 0x00] := by decide
theorem test_compile_V100 : compile ["10: LDA 10"] = .ok [0x01, 0x00] := by decide
theorem test_compile_V101 : compile ["lda 0Xff"] = .ok [0x01, 0xFF] := by decide
theorem test_compile_V93 : compile ["LDA"] = .error (.missingOperand "LDA".toList 1) := by decide
theorem test_compile_V108 : compile ["HALT:"] = .ok [] := by decide
theorem test_compile_V110 : compile ["L: M: HALT"] = .error (.unknownInstruction "M:".toList 1) := by decide
theorem test_compile_V112 : compile ["", "   ", "NOT"] = .ok [0x0A] := by decide
theorem test_compile_V115 : compile ["JMP END", "END:"] = .ok [0x04, 0x02] := by decide
theorem test_compile_P1 : compile ["LDX 3", "LOOP: DEX", "BEQ DONE", "JMP LOOP", "DONE: LDA 0x2A", "STA 0x80", "HALT"] =
    .ok [0x0B, 0x03, 0x0D, 0x06, 0x07, 0x04, 0x02, 0x01, 0x2A, 0x03, 0x80, 0xFF] := by decide
theorem test_disassemble_R89 : disassemble (.beq 0x06) = "BEQ 0x06".toList := by decide

/-! ### Witnesses: for each statement with hypotheses, values that meet them -/

/-- STA 0x12 at 0x10, then a HALT, then a two-byte opcode at 255. -/
def demo : State :=
  { machineAt 0x10 [(0x10, 0x03), (0x11, 0x12), (0x12, 0xFF), (0xFF, 0x01)] with a := 0x2A, x := 0xFF, carry := true }

/-- A STA at 254: the highest place of a two-byte instruction. -/
def demo254 : State := machineAt 254 [(254, 0x03), (255, 0x80)]

/-- A two-byte opcode at 255. -/
def demo255 : State := machineAt 255 [(255, 0x01)]

theorem witness_DecodeOfEncode : (Instr.lda 0xFF).wellFormed = true := rfl
theorem witness_DecodeAllOfEncodeAll : ∀ i ∈ [Instr.lda 0xFF, .not, .sta 0], i.wellFormed = true := by decide
theorem witness_DecodeAllFollowsDecode : decode [0x01, 0xFF, 0x0A] = .ok (.instr (.lda 0xFF), [0x0A]) := by decide
theorem witness_MemoryWriteThenRead : demo.mem.wf ∧ 255 < 256 ∧ ¬ (256 < 256) := by decide
theorem witness_EqualReadsEqualMemory : demo.mem.wf ∧ ∀ a, demo.mem.read a = demo.mem.read a :=
  ⟨by decide, fun _ => rfl⟩
theorem witness_BusForwardsToMemory :
    (∃ m, demo.mem.write 255 7 = .ok m) ∧ demo.mem.write 256 7 = .error (.outOfRange ⟨256⟩) :=
  ⟨⟨_, rfl⟩, rfl⟩
theorem witness_operand_at_254 : demo254.mem.wf ∧ demo254.pc.toNat + 1 < 256 := by decide
theorem witness_one_byte_at_255 : demo255.pc.toNat < 256 ∧ demo255.pc.toNat = 255 ∧ Ready demo255 :=
  ⟨by decide, by decide, rfl, rfl, rfl⟩
theorem witness_HaltStops : Ready { demo with pc := 0x12 } ∧ State.busRead { demo with pc := 0x12 } 0x12 = .ok 0xFF :=
  ⟨⟨rfl, rfl, rfl⟩, by decide⟩
theorem witness_NotComplements : exec .not demo255 = .next (demo255.writeA 0xFF |>.advance 1).logExecuted := rfl
theorem witness_OperandFetchFaults : (Instr.lda 1).length = 2 ∧ 256 ≤ demo255.pc.toNat + 1 := by decide
theorem witness_StepRunsDecodedInstruction : Ready demo ∧ (Instr.sta 0x12).wellFormed = true ∧
    decode demo.bytesAtPC = .ok (.instr (.sta 0x12), []) := ⟨⟨rfl, rfl, rfl⟩, rfl, by decide⟩
theorem witness_StepRunsDecodedInstruction_at_255 : Ready (machineAt 255 [(255, 0x0C)]) ∧
    decode (machineAt 255 [(255, 0x0C)]).bytesAtPC = .ok (.instr .inx, []) := ⟨⟨rfl, rfl, rfl⟩, by decide⟩
theorem witness_StepSkipsUnknownOpcode : Ready (machineAt 255 [(255, 0xFE)]) ∧
    (machineAt 255 [(255, 0xFE)]).busRead 255 = .ok 0xFE ∧ Opcode.ofByte 0xFE = none :=
  ⟨⟨rfl, rfl, rfl⟩, by decide, by decide⟩
theorem witness_StepHaltsOffEnd : Ready (machineAt 256 []) ∧ 256 ≤ (machineAt 256 []).pc.toNat :=
  ⟨⟨rfl, rfl, rfl⟩, by decide⟩
theorem witness_HaltedStepDoesNothing : State.loaded { demo with running := false } = true ∧
    State.fault { demo with running := false } = none ∧ State.running { demo with running := false } = false :=
  ⟨rfl, rfl, rfl⟩
theorem witness_UnloadedStepRefused : State.powerOn.loaded = false ∧
    ∃ e t, State.reset.loadProgram [0x01, 0x02] 0xFF = .failed e t := by
  refine ⟨rfl, ?_⟩
  rcases State.loadProgram_cases [0x01, 0x02] 0xFF State.reset with ⟨_, h⟩ | ⟨h, _⟩
  · exact ⟨_, _, h⟩
  · exact absurd h (by decide)
theorem witness_FaultingStepState : Ready demo255 ∧ demo255.pc.toNat = 255 ∧ demo255.busRead 255 = .ok 0x01 ∧
    Opcode.ofByte 0x01 = some .lda ∧ Opcode.lda.hasOperand = true :=
  ⟨⟨rfl, rfl, rfl⟩, by decide, by decide, by decide, rfl⟩
theorem witness_FaultIsSticky : State.loaded { demo255 with fault := some ⟨256⟩ } = true ∧
    State.fault { demo255 with fault := some ⟨256⟩ } = some ⟨256⟩ := ⟨rfl, rfl⟩
theorem witness_Inv : Inv demo ∧ Inv demo255 ∧ Inv { demo255 with fault := some ⟨256⟩ } := by
  refine ⟨⟨by decide, by decide, by decide, ?_⟩, ⟨by decide, by decide, by decide, ?_⟩,
    ⟨by decide, by decide, by decide, ?_⟩⟩
  · intro _ r h
    cases h
  · intro _ r h
    cases h
  · intro _ r h
    cases h
    exact ⟨rfl, by decide, rfl⟩
theorem witness_OnlyOperandFetchFaults : ∃ e t, stepCall demo255 = .raised e t := ⟨_, _, rfl⟩
theorem witness_StepKeepsInv : ∃ t, step demo = .next t := ⟨_, rfl⟩
theorem witness_HostCallsKeepInv : (serve .step demo).state.isSome = true ∧ (serve .snapshot demo).state = some demo ∧
    (serve (.readMemory 256) demo).state = some demo := ⟨by decide, rfl, rfl⟩
theorem witness_load : demo.mem.wf ∧ ∃ t, demo.loadProgram [0x01, 0x02] 0xFE = .ok t := by
  refine ⟨by decide, ?_⟩
  rcases State.loadProgram_cases [0x01, 0x02] 0xFE demo with ⟨h, _⟩ | ⟨_, _, h, _⟩
  · exact absurd h (by decide)
  · exact ⟨_, h⟩
theorem witness_EntryPointIsOffset : ∃ t, demo.loadProgram [0x0A] 0xFF = .ok t ∧ t.bytesAtPC = [0x0A] := by
  exact ⟨{ machineAt 0xFF [(0xFF, 0x0A)] with draws := demo.draws }, by decide +kernel, by decide⟩
theorem witness_LoadTooLargeFails : 256 < (0xFF : Byte).toNat + [(1 : Byte), 2].length ∧
    (0xFE : Byte).toNat + [(1 : Byte), 2].length ≤ 256 := by decide
theorem witness_ResetIsEmptyLoad : State.reset.mem.wf := by decide
theorem witness_OnlyLoadClearsFault : ∃ t, (serve .step { demo255 with fault := some ⟨256⟩ }).state = some t ∧
    t.fault = some ⟨256⟩ := ⟨_, rfl, rfl⟩
theorem witness_ZeroFlagRule : (∃ t, exec (.lda 0) demo = .next t) ∧ (∃ t, exec (.ldx 0) demo = .next t) ∧
    (∃ t, exec (.sta 0) demo = .next t) ∧ writesA (.lda 0) = true ∧ writesX (.ldx 0) = true ∧
    writesA (.sta 0) = false ∧ writesX (.sta 0) = false ∧ (∃ t, exec (.beq 0) { demo with zero := true } = .next t) :=
  ⟨⟨_, rfl⟩, ⟨_, rfl⟩, ⟨_, rfl⟩, rfl, rfl, rfl, rfl, ⟨_, rfl⟩⟩
theorem witness_CarryStaysStale : (∃ t, exec (.add 0xD6) demo = .next t) ∧ (∃ t, exec (.sub 0x2B) demo = .next t) ∧
    (∃ t, exec (.and 0) demo = .next t) ∧ (∃ t, step demo = .next t) ∧ demo.busRead demo.pc.toNat ≠ .ok 0x02 ∧
    demo.busRead demo.pc.toNat ≠ .ok 0x05 :=
  ⟨⟨_, rfl⟩, ⟨_, rfl⟩, ⟨_, rfl⟩, ⟨_, rfl⟩, by decide, by decide⟩
theorem witness_PcAdvanceRule : demo254.pc.toNat < 256 ∧ (∃ t, exec (.beq 0x10) demo254 = .next t) ∧ Ready demo254 ∧
    demo254.busRead demo254.pc.toNat = .ok 0x03 ∧ Opcode.ofByte 0x03 = some .sta ∧ Opcode.sta.hasOperand = true ∧
    demo254.busRead (demo254.pc.toNat + 1) = .ok 0x80 :=
  ⟨by decide, ⟨_, rfl⟩, ⟨rfl, rfl, rfl⟩, by decide, by decide, rfl, by decide⟩
theorem witness_RunningBitRule : (∃ t, exec .halt demo = .next t) ∧
    (∃ t, step { demo with running := false } = .next t) ∧ ∃ e t, stepCall demo255 = .raised e t :=
  ⟨⟨_, rfl⟩, ⟨_, rfl⟩, _, _, rfl⟩
theorem witness_RegistersReadAndWritten : (∃ t, exec (.lda 5) demo = .next t) ∧ (∃ t, exec .inx demo = .next t) ∧
    (Instr.lda 5).opcode ∉ [Opcode.add, .sub, .and, .or, .xor, .not, .sta] ∧ (Instr.lda 5).opcode ∉ [Opcode.inx, .dex] ∧
    Instr.inx.opcode ∈ [Opcode.inx, .dex] :=
  ⟨⟨_, rfl⟩, ⟨_, rfl⟩, by decide, by decide, by decide⟩
theorem witness_StoredByteIsFetched : demo.mem.wf ∧ Ready demo ∧ demo.busRead demo.pc.toNat = .ok 0x03 ∧
    demo.busRead (demo.pc.toNat + 1) = .ok 0x12 ∧ (0x12 : Byte).toNat = demo.pc.toNat + 2 :=
  ⟨by decide, ⟨rfl, rfl, rfl⟩, by decide, by decide, by decide⟩
theorem witness_LogAndIRNeverInfluence :
    SameButLogAndIR demo { demo with log := [.unknownOpcode], ir := 0x77, draws := 9 } :=
  ⟨rfl, rfl, rfl, rfl, rfl, rfl, rfl, rfl, rfl⟩
theorem witness_LogKeepsLastEntries : (openLines 0 0 15).length ≤ 15 := by decide
theorem witness_UnknownBytesRunOffTheEnd : Ready (machineAt 0xFE [(0xFE, 0x0E)]) ∧
    (machineAt 0xFE [(0xFE, 0x0E)]).pc.toNat ≤ 256 ∧
    ∀ addr, (machineAt 0xFE [(0xFE, 0x0E)]).pc.toNat ≤ addr → addr < 256 →
      ∃ b, (machineAt 0xFE [(0xFE, 0x0E)]).busRead addr = .ok b ∧ Opcode.ofByte b = none := by
  refine ⟨⟨rfl, rfl, rfl⟩, by decide, fun addr h1 h2 => ?_⟩
  have h3 : 254 ≤ addr := h1
  have h4 : addr = 254 ∨ addr = 255 := by omega
  rcases h4 with rfl | rfl
  · exact ⟨0x0E, by decide, by decide⟩
  · exact ⟨0x00, by decide, by decide⟩
theorem witness_LiteralDigitsArePositional : ∀ e ∈ ['2', '5'], (baseDigit 10 e).isSome = true := by
  rw [← List.all_eq_true]
  decide
/-- Tokens of 45_assembler.md R175 and R176's kind, the character that is no digit first, in the middle, last. -/
theorem witness_LiteralDigitsArePositional_no_digit :
    [("+5", '+'), ("1_0", '_'), ("0b101", 'b'), ("5-", '-')].all (fun e =>
      [['0', 'x'], ['0', 'X'], ['%']].all (fun mark => !mark.isPrefixOf e.1.toList) &&
        e.1.toList.contains e.2 && (baseDigit 10 e.2).isNone) = true := by decide
theorem witness_BoundLabelFails : passOne 1 ["a: NOT".toList] PassOne.start = .ok ⟨[(['A'], 0)], [⟨0, .not, [], 1⟩], 1⟩ ∧
    tokenize "A: HALT".toList = [['A', ':'], "HALT".toList] ∧ labelName ['A', ':'] = some ['A'] ∧
    (([(['A'], 0)] : LabelTable).lookup ['A']).isSome = true ∧
    "a: NOT".toList.flatMap upperChar = "A: not".toList.flatMap upperChar := by decide
theorem witness_OperandTokenRule : Opcode.lda.hasOperand = true ∧
    (([] : LabelTable).lookup ['Q'] = none ∧ parseLiteral ['Q'] = none) ∧
    ([(['E'], 256)] : LabelTable).lookup ['E'] = some 256 ∧
    (([] : LabelTable).lookup "255".toList = none ∧ parseLiteral "255".toList = some 255) := by decide
/-- A label before the first instruction, one on a line with its instruction, one alone at the end. -/
theorem witness_LabelsBindAddresses :
    passOne 1 ["A: LDA 1".toList, "B: NOT".toList, "C:".toList] PassOne.start =
      .ok ⟨[(['A'], 0), (['B'], 2), (['C'], 3)], [⟨0, .lda, [['1']], 1⟩, ⟨2, .not, [], 2⟩], 3⟩ ∧
    passOne 1 ["A: LDA 1".toList] PassOne.start = .ok ⟨[(['A'], 0)], [⟨0, .lda, [['1']], 1⟩], 2⟩ ∧
    tokenize "B: NOT".toList = [['B', ':'], "NOT".toList] ∧ labelName ['B', ':'] = some ['B'] := by decide
theorem witness_AssembledLayout : assemble ["JMP E".toList, "E: NOT".toList] = .ok [0x04, 0x02, 0x0A] := by decide
theorem witness_LoadedAssemblyRuns : compile ["JMP E", "E: NOT"] = .ok [0x04, 0x02, 0x0A] ∧ demo.mem.wf ∧
    ∃ t, demo.loadProgram [0x04, 0x02, 0x0A] 0 = .ok t ∧ Ready { t with pc := 2 } ∧
      passOne 1 ["JMP E".toList, "E: NOT".toList] PassOne.start =
        .ok ⟨[(['E'], 2)], [⟨0, .jmp, [['E']], 1⟩, ⟨2, .not, [], 2⟩], 3⟩ := by
  refine ⟨by decide, by decide, ?_⟩
  rcases State.loadProgram_cases [0x04, 0x02, 0x0A] 0 demo with ⟨h, _⟩ | ⟨_, _, h, _⟩
  · exact absurd h (by decide)
  · exact ⟨_, h, ⟨rfl, rfl, rfl⟩, by decide⟩

end Sys2Proof.Machine.Tests
end

section
/-! What an instruction leaves when it completes, in two parts: what it writes besides PC, and the PC it hands on. The
rule of each field of the next state is read off these parts, so that no proof about `exec` repeats its arms. -/

namespace Sys2Proof.Machine

/-- What an instruction writes besides PC and the log (10_state.md R21, R22, R28, R31; 20_memory.md R55). -/
def effect : Instr → State → State
  | .lda v, s => s.writeA v
  | .add v, s => (s.writeCarry (addCarry s.a v)).writeA (wrapAdd s.a v)
  | .sta d, s => { s with mem := ⟨putCell d.toNat s.a s.mem.cells⟩ }
  | .jmp _, s => s
  | .sub v, s => (s.writeCarry (subBorrow s.a v)).writeA (wrapSub s.a v)
  | .beq _, s => s
  | .and v, s => s.writeA (s.a &&& v)
  | .or v, s => s.writeA (s.a ||| v)
  | .xor v, s => s.writeA (s.a ^^^ v)
  | .not, s => s.writeA (~~~ s.a)
  | .ldx v, s => s.writeX v
  | .inx, s => s.writeX (wrapAdd s.x 1)
  | .dex, s => s.writeX (wrapSub s.x 1)
  | .halt, s => s.stop

/-- The PC an instruction hands on: the target of a taken jump, else its length further (10_state.md R25). -/
def nextPC : Instr → State → PCWord
  | .jmp d, _ => absoluteTarget d
  | .beq d, s => if s.zero = true then absoluteTarget d else s.pc + 2
  | i, s => s.pc + BitVec.ofNat 9 i.length

/-- The state an instruction leaves when it completes. -/
def completed (i : Instr) (s : State) : State :=
  ((effect i s).jump (nextPC i s)).logExecuted

theorem ite_next_fault_eq_next_iff {c : Prop} [Decidable c] {s t : State} {e : Fault} :
    ((if c then .next s else .fault e : MachineOutcome) = .next t) ↔ c ∧ s = t := by
  by_cases hc : c <;> simp [hc]

/-- An instruction completes exactly when its operand byte, if it has one, lies in memory, and then leaves `completed`
of it. -/
theorem exec_next_iff (i : Instr) (s t : State) :
    exec i s = .next t ↔ (i.length = 2 → s.pc.toNat + 1 < Config.memSize) ∧ completed i s = t := by
  have two {u : State} {e : Fault} (hlen : i.length = 2) (hu : completed i s = u)
      (h : exec i s = if s.pc.toNat + 1 < Config.memSize then .next u else .fault e) :
      exec i s = .next t ↔ (i.length = 2 → s.pc.toNat + 1 < Config.memSize) ∧ completed i s = t := by
    rw [h, ite_next_fault_eq_next_iff, hu]
    simp only [hlen, true_imp_iff]
  have one (hlen : i.length = 1) (h : exec i s = .next (completed i s)) :
      exec i s = .next t ↔ (i.length = 2 → s.pc.toNat + 1 < Config.memSize) ∧ completed i s = t := by
    simp [h, hlen]
  cases i with
  | lda v => exact two rfl rfl (exec_lda_eq v s)
  | add v => exact two rfl rfl (exec_add_eq v s)
  | sta d => exact two rfl rfl (exec_sta_eq d s)
  | jmp d => exact two rfl rfl (exec_jmp_eq d s)
  | sub v => exact two rfl rfl (exec_sub_eq v s)
  | beq d =>
    refine two rfl ?_ (exec_beq_eq d s)
    cases hz : s.zero <;> simp only [completed, effect, nextPC, hz] <;> rfl
  | and v => exact two rfl rfl (exec_and_eq v s)
  | or v => exact two rfl rfl (exec_or_eq v s)
  | xor v => exact two rfl rfl (exec_xor_eq v s)
  | not => exact one rfl (exec_not_eq s)
  | ldx v => exact two rfl rfl (exec_ldx_eq v s)
  | inx => exact one rfl (exec_inx_eq s)
  | dex => exact one rfl (exec_dex_eq s)
  | halt => exact one rfl (exec_halt_eq s)

theorem completed_of_exec_next {i : Instr} {s t : State} (h : exec i s = .next t) : completed i s = t :=
  ((exec_next_iff i s t).mp h).2

@[simp] theorem completed_a (i : Instr) (s : State) : (completed i s).a = (effect i s).a := rfl
@[simp] theorem completed_x (i : Instr) (s : State) : (completed i s).x = (effect i s).x := rfl
@[simp] theorem completed_pc (i : Instr) (s : State) : (completed i s).pc = nextPC i s := rfl
@[simp] theorem completed_zero (i : Instr) (s : State) : (completed i s).zero = (effect i s).zero := rfl

@[simp] theorem isZero_eq_true_iff (v : Byte) : isZero v = true ↔ v = 0 := by
  simp [isZero]

/-- A write of A sets zero from the value written (10_state.md R29). -/
theorem effect_zero_of_writesA {i : Instr} (s : State) (h : writesA i = true) :
    (effect i s).zero = isZero (effect i s).a := by
  cases i with
  | lda _ | add _ | sub _ | and _ | or _ | xor _ | not => rfl
  | sta _ | jmp _ | beq _ | ldx _ | inx | dex | halt => cases h

/-- A write of X sets zero from the value written (10_state.md R29). -/
theorem effect_zero_of_writesX {i : Instr} (s : State) (h : writesX i = true) :
    (effect i s).zero = isZero (effect i s).x := by
  cases i with
  | ldx _ | inx | dex => rfl
  | lda _ | add _ | sub _ | and _ | or _ | xor _ | not | sta _ | jmp _ | beq _ | halt => cases h

/-- An instruction that writes neither A nor X leaves zero. -/
theorem effect_zero_of_writes_neither {i : Instr} (s : State) (hA : writesA i = false) (hX : writesX i = false) :
    (effect i s).zero = s.zero := by
  cases i with
  | sta _ | jmp _ | beq _ | halt => rfl
  | lda _ | add _ | sub _ | and _ | or _ | xor _ | not => cases hA
  | ldx _ | inx | dex => cases hX

@[simp] theorem absoluteTarget_toNat (d : Byte) : (absoluteTarget d).toNat = d.toNat := by
  have := d.isLt
  simp only [absoluteTarget, BitVec.toNat_ofNat]
  omega

/-- Below 256 no advance by one or two bytes wraps the 9-bit PC. -/
theorem pc_add_toNat {pc : PCWord} (n : Nat) (hpc : pc.toNat < 256) (hn : n ≤ 2) :
    (pc + BitVec.ofNat 9 n).toNat = pc.toNat + n := by
  simp only [BitVec.toNat_add, BitVec.toNat_ofNat]
  omega

/-- An instruction neither reads `running` nor writes it, but that HALT makes it false. -/
theorem completed_running_update (i : Instr) (s : State) (r : Bool) :
    completed i { s with running := r } =
      { completed i s with running := if i = .halt then false else r } := by
  cases i <;> rfl

end Sys2Proof.Machine
end

section
/-! The step of a ready machine, by what stands at PC; what a step that raises an error leaves; what a load that
succeeds leaves. -/

namespace Sys2Proof.Machine

theorem lt_256_of_busRead_ok {s : State} {addr : Nat} {b : Byte} (h : s.busRead addr = .ok b) : addr < 256 := by
  rw [State.busRead_eq] at h
  split at h
  · assumption
  · cases h

/-- A ready machine that reads an opcode puts it in IR and dispatches it (40_execution_cycle.md R103, R104). -/
theorem stepCall_of_opcode {s : State} {b : Byte} (hr : Ready s) (hb : s.busRead s.pc.toNat = .ok b) :
    stepCall s = dispatchOpcode b (s.writeIR b) := by
  obtain ⟨hloaded, hfault, hrunning⟩ := hr
  have hpc : ¬ Config.memSize ≤ s.pc.toNat := Nat.not_le.mpr (lt_256_of_busRead_ok hb)
  simp [stepCall, runningStep, State.fetchOpcode, hloaded, hfault, hrunning, hb, hpc]

/-- A ready machine whose PC is past memory halts (40_execution_cycle.md R102). -/
theorem step_of_offEnd {s : State} (hr : Ready s) (hpc : 256 ≤ s.pc.toNat) : step s = .next s.haltOffEnd := by
  obtain ⟨hloaded, hfault, hrunning⟩ := hr
  simp [step, stepCall, runningStep, hloaded, hfault, hrunning, hpc, StepResult.outcome]

/-- At a byte with no handler the step is the skip (30_encoding.md R85). -/
theorem step_of_unknown {s : State} {b : Byte} (hr : Ready s) (hb : s.busRead s.pc.toNat = .ok b)
    (hop : Opcode.ofByte b = none) : step s = .next (s.writeIR b).skipUnknown := by
  simp [step, stepCall_of_opcode hr hb, dispatchOpcode, decodeAt, hop, StepResult.outcome]

/-- The host's form of a handler's run is what the handler answers. -/
theorem runHandler_outcome (i : Instr) (s : State) : (runHandler i s).outcome = exec i s := by
  unfold runHandler
  cases exec i s <;> rfl

/-- At a two-byte opcode the step is the instruction that the byte after it completes (40_execution_cycle.md R106). -/
theorem step_of_operand {s : State} {b v : Byte} {op : Opcode} (hr : Ready s) (hb : s.busRead s.pc.toNat = .ok b)
    (hop : Opcode.ofByte b = some op) (ho : op.hasOperand = true) (hv : s.busRead (s.pc.toNat + 1) = .ok v) :
    step s = exec (op.instr v) (s.writeIR b) := by
  have hfetch : (s.writeIR b).fetchOperand = .ok v := hv
  rw [step, stepCall_of_opcode hr hb, ← runHandler_outcome]
  simp [dispatchOpcode, decodeAt, hop, ho, hfetch]

/-- A step that answers a next state is a call that returned it. -/
theorem stepCall_of_step_next {s t : State} (h : step s = .next t) : stepCall s = .returned t := by
  unfold step at h
  cases hc : stepCall s with
  | returned u =>
    rw [hc] at h
    cases h
    rfl
  | raised e u =>
    rw [hc] at h
    cases h
  | refused r =>
    rw [hc] at h
    cases h

/-- A step of a machine that is not Running changes nothing if it answers (40_execution_cycle.md R101). -/
theorem step_eq_of_not_running {s t : State} (hr : s.running = false) (h : step s = .next t) : t = s := by
  have hcall := stepCall_of_step_next h
  have hnot : ¬ Ready s := fun ⟨_, _, hrunning⟩ => by simp [hr] at hrunning
  rcases stepCall_cases s with
    ⟨_, hs⟩ | ⟨_, _, _, hs⟩ | ⟨_, _, _, hs⟩ | ⟨hready, _⟩ | ⟨_, hready, _⟩ | ⟨_, _, hready, _⟩ | ⟨_, _, _, hready, _⟩
  · rw [hs] at hcall
    cases hcall
  · rw [hs] at hcall
    cases hcall
  · rw [hs] at hcall
    cases hcall
    rfl
  all_goals exact absurd hready hnot

/-- A handler's run raises an error only as `State.raise` does. -/
theorem runHandler_raised {i : Instr} {s t : State} {e : Fault} (h : runHandler i s = .raised e t) :
    t = s.raise e := by
  unfold runHandler at h
  cases hx : exec i s with
  | next u =>
    rw [hx] at h
    cases h
  | fault f =>
    rw [hx] at h
    cases h
    rfl
  | refused r =>
    rw [hx] at h
    cases h

/-- A step that raises an error leaves the faulted machine it found, or records the error after the fetch
(40_execution_cycle.md R111). -/
theorem stepCall_raised {s t : State} {e : Fault} (h : stepCall s = .raised e t) :
    t = s ∨ ∃ b, t = (s.writeIR b).raise e := by
  rcases stepCall_cases s with
    ⟨_, hs⟩ | ⟨_, _, _, hs⟩ | ⟨_, _, _, hs⟩ | ⟨_, _, hs⟩ | ⟨_, _, _, _, _, hs⟩ | ⟨b, _, _, _, _, _, _, hs⟩ |
    ⟨b, _, _, _, _, _, _, _, hs⟩ <;> rw [hs] at h
  · cases h
  · cases h
    exact .inl rfl
  · cases h
  · cases h
  · cases h
  · cases h
    exact .inr ⟨b, rfl⟩
  · exact .inr ⟨b, runHandler_raised h⟩

@[simp] theorem State.raise_running (e : Fault) (s : State) : (s.raise e).running = s.running := by
  cases e <;> rfl

/-- What a load that succeeds leaves: the reset machine, but for PC, memory and the counter of free values
(70_reset_and_hazards.md R230). -/
theorem State.loadProgram_ok {bytes : List Byte} {offset : Byte} {s t : State} (h : s.loadProgram bytes offset = .ok t) :
    ∃ m, t = { State.reset with pc := BitVec.ofNat 9 offset.toNat, mem := m, draws := s.draws } := by
  rcases State.loadProgram_cases bytes offset s with ⟨_, hfailed⟩ | ⟨_, m, hok, _⟩
  · rw [hfailed] at h
    cases h
  · rw [hok] at h
    cases h
    exact ⟨m, rfl⟩

end Sys2Proof.Machine
end

section
/-! The statements on the zero flag, PC, the running bit and the host's reads. -/

namespace Sys2Proof.Machine

theorem exec_next_zero {i : Instr} {s t : State} (h : exec i s = .next t) :
    (writesA i = true → (t.zero = true ↔ t.a = 0)) ∧ (writesX i = true → (t.zero = true ↔ t.x = 0)) ∧
      (writesA i = false → writesX i = false → t.zero = s.zero) := by
  cases completed_of_exec_next h
  refine ⟨fun hA => ?_, fun hX => ?_, effect_zero_of_writes_neither s⟩
  · rw [completed_zero, effect_zero_of_writesA s hA, isZero_eq_true_iff, completed_a]
  · rw [completed_zero, effect_zero_of_writesX s hX, isZero_eq_true_iff, completed_x]

/-- Settles O44: zero of the next state is read off what each instruction writes. -/
theorem zeroFlagRule : Obligations.ZeroFlagRule := by
  unfold Obligations.ZeroFlagRule
  refine ⟨fun i s t h => exec_next_zero h, fun s t b hr hb hop h => ?_, fun bytes offset s t h => ?_,
    fun d s t h => ?_⟩
  · rw [step_of_unknown hr hb hop] at h
    cases h
    rfl
  · obtain ⟨m, rfl⟩ := State.loadProgram_ok h
    rfl
  · cases completed_of_exec_next h
    rfl

/-- Settles O46: below 256 the 9-bit sum of `nextPC` does not wrap. -/
theorem pcAdvanceRule : Obligations.PcAdvanceRule := by
  unfold Obligations.PcAdvanceRule
  refine ⟨fun i s t hpc h => ?_, fun s b hr hb hop => ?_, fun s b v op hr hb hop ho hv => ?_⟩
  · cases completed_of_exec_next h
    rw [completed_pc]
    cases i with
    | jmp d => exact absoluteTarget_toNat d
    | beq d =>
      cases hz : s.zero with
      | true => simp [nextPC, hz]
      | false => simpa [nextPC, hz] using pc_add_toNat 2 hpc (by decide)
    | not | inx | dex | halt => exact pc_add_toNat 1 hpc (by decide)
    | lda _ | add _ | sta _ | sub _ | and _ | or _ | xor _ | ldx _ => exact pc_add_toNat 2 hpc (by decide)
  · exact ⟨_, step_of_unknown hr hb hop, pc_add_toNat 1 (lt_256_of_busRead_ok hb) (by decide)⟩
  · exact step_of_operand hr hb hop ho hv

/-- An instruction that completes does so whatever `running` is, and but for HALT hands it on. -/
theorem exec_running_update {i : Instr} {s t : State} (r : Bool) (h : exec i s = .next t) :
    exec i { s with running := r } = .next { t with running := if i = .halt then false else r } := by
  obtain ⟨hfits, rfl⟩ := (exec_next_iff i s t).mp h
  exact (exec_next_iff _ _ _).mpr ⟨hfits, completed_running_update i s r⟩

/-- Settles O47: HALT, the off-end halt and the load are the writers; a step that raises an error is none. -/
theorem runningBitRule : Obligations.RunningBitRule := by
  unfold Obligations.RunningBitRule
  refine ⟨fun i s t r h => exec_running_update r h, fun s t hr hpc h => ?_, fun bytes offset s t h => ?_,
    fun s t hr h => step_eq_of_not_running hr h, fun s t e h => ?_⟩
  · rw [step_of_offEnd hr hpc] at h
    cases h
    rfl
  · obtain ⟨m, rfl⟩ := State.loadProgram_ok h
    rfl
  · rcases stepCall_raised h with rfl | ⟨b, rfl⟩
    · rfl
    · rw [State.raise_running, State.writeIR_running]

/-- A memory read leaves the machine as it is, an address out of range included (20_memory.md R68). -/
theorem serve_readMemory_state (addr : Nat) (s : State) : (serve (.readMemory addr) s).state = some s := by
  simp only [serve]
  cases s.busRead addr <;> rfl

/-- A compile request leaves the machine as it is, whether or not the source assembles. -/
theorem serve_compile_state (lines : List String) (s : State) : (serve (.compile lines) s).state = some s := by
  simp only [serve]
  cases compile lines <;> rfl

/-- Settles O52: none of the three requests touches the machine it is served with. -/
theorem hostReadsChangeNothing : Obligations.HostReadsChangeNothing := by
  unfold Obligations.HostReadsChangeNothing
  exact fun s => ⟨rfl, fun addr => serve_readMemory_state addr s, fun lines => serve_compile_state lines s⟩

end Sys2Proof.Machine
end

section
/-! The statements on the opcode map and on the length of an encoding. -/

namespace Sys2Proof

/-- The map selects by all eight bits (30_encoding.md R84). -/
theorem Opcode.ofByte_eq_some_iff {b : Byte} {op : Opcode} : Opcode.ofByte b = some op ↔ op.byte = b :=
  ⟨Opcode.byte_of_ofByte, fun h => h ▸ Opcode.ofByte_byte op⟩

/-- The two-byte rows are 0x01 to 0x09 and 0x0B (30_encoding.md R80). -/
theorem Opcode.hasOperand_iff_byte (op : Opcode) :
    op.hasOperand = true ↔ (1 ≤ op.byte.toNat ∧ op.byte.toNat ≤ 9) ∨ op.byte = 0x0B := by
  cases op <;> decide

/-- Every byte from 0x01 to 0x09, and 0x0B, has a row (30_encoding.md R80, R84). -/
theorem Opcode.exists_byte_eq {b : Byte} (h : (1 ≤ b.toNat ∧ b.toNat ≤ 9) ∨ b = 0x0B) :
    ∃ op : Opcode, op.byte = b := by
  rcases h with ⟨hlo, hhi⟩ | rfl
  · obtain ⟨op, hop⟩ : ∃ op : Opcode, op.byte.toNat = b.toNat := by
      interval_cases b.toNat
      exacts [⟨.lda, rfl⟩, ⟨.add, rfl⟩, ⟨.sta, rfl⟩, ⟨.jmp, rfl⟩, ⟨.sub, rfl⟩, ⟨.beq, rfl⟩, ⟨.and, rfl⟩, ⟨.or, rfl⟩,
        ⟨.xor, rfl⟩]
    exact ⟨op, BitVec.eq_of_toNat_eq hop⟩
  · exact ⟨.ldx, rfl⟩

/-- How many bytes the instruction or skip that begins with an opcode byte takes: its row's length, or 1 where it has
no handler (30_encoding.md R80, R85). -/
def lengthAfterOpcode (b : Byte) : Nat :=
  (Opcode.ofByte b).elim 1 Opcode.length

theorem lengthAfterOpcode_eq (b : Byte) :
    lengthAfterOpcode b = if (1 ≤ b.toNat ∧ b.toNat ≤ 9) ∨ b = 0x0B then 2 else 1 := by
  cases hop : Opcode.ofByte b with
  | none =>
    have hno : ¬ ((1 ≤ b.toNat ∧ b.toNat ≤ 9) ∨ b = 0x0B) := fun h => by
      obtain ⟨op, rfl⟩ := Opcode.exists_byte_eq h
      simp at hop
    rw [if_neg hno, lengthAfterOpcode, hop, Option.elim_none]
  | some op =>
    obtain rfl := Opcode.byte_of_ofByte hop
    simp only [lengthAfterOpcode, hop, Option.elim_some, Opcode.length, Opcode.hasOperand_iff_byte]

theorem Decoded.length_pos (d : Decoded) : 0 < d.length := by
  cases d with
  | skip b => exact Nat.one_pos
  | instr i =>
    rw [Decoded.length, Instr.length_eq_opcode, Opcode.length]
    split <;> decide

/-- With an operand byte at hand the decoder always answers, and the length of its answer is the opcode's. -/
theorem exists_decodeAt_ok {ε : Type} (b v : Byte) :
    ∃ d, decodeAt (ε := ε) b (.ok v) = .ok d ∧ d.length = lengthAfterOpcode b := by
  rcases decodeAt_cases (ε := ε) b (.ok v) with
    ⟨hop, hd⟩ | ⟨op, hop, -, hd⟩ | ⟨op, w, hop, -, -, hd⟩ | ⟨op, e, -, -, he, -⟩
  · exact ⟨_, hd, by simp [lengthAfterOpcode, hop, Decoded.length]⟩
  · exact ⟨_, hd, by simp [lengthAfterOpcode, hop, Decoded.length, Opcode.instr_length]⟩
  · exact ⟨_, hd, by simp [lengthAfterOpcode, hop, Decoded.length, Opcode.instr_length]⟩
  · cases he

/-- What `decode` leaves is the whole sequence less the bytes of what it read. -/
theorem decode_cons_of_decodeAt {b : Byte} {rest : List Byte} {d : Decoded}
    (h : decodeAt b (operandIn b rest) = .ok d) : decode (b :: rest) = .ok (d, (b :: rest).drop d.length) := by
  obtain ⟨n, hn⟩ := Nat.exists_eq_add_one.mpr d.length_pos
  simp [decode, h, hn]

/-- Settles O2: the decoder's answer has the length that the opcode byte's row gives, whatever the operand. -/
theorem lengthFixedByOpcode : Obligations.LengthFixedByOpcode := by
  unfold Obligations.LengthFixedByOpcode
  intro b v rest
  obtain ⟨d, hd, hlen⟩ := exists_decodeAt_ok b v
  exact ⟨d, decode_cons_of_decodeAt hd, hlen.trans (lengthAfterOpcode_eq b)⟩

/-- Settles O1: the map is the inverse of `Opcode.byte`, and each row's bytes are those of R84's table. -/
theorem opcodeMapIsExact : Obligations.OpcodeMapIsExact := by
  unfold Obligations.OpcodeMapIsExact
  refine ⟨fun b op => Opcode.ofByte_eq_some_iff, fun v => ?_, fun i => Opcode.ofByte_byte i.opcode⟩
  and_intros <;> rfl

end Sys2Proof
end

section
/-! The statements on the step that does nothing and on the step that faults at its operand fetch. -/

namespace Sys2Proof.Machine

theorem step_of_returned {s t : State} (h : stepCall s = .returned t) : step s = .next t := by
  rw [step, h, StepResult.outcome]

theorem step_of_raised {s t : State} {e : Fault} (h : stepCall s = .raised e t) : step s = .fault e := by
  rw [step, h, StepResult.outcome]

/-- A loaded machine without a fault that is not Running is left as it is (40_execution_cycle.md R101). -/
theorem stepCall_of_halted {s : State} (hloaded : s.loaded = true) (hfault : s.fault = none)
    (hrunning : s.running = false) : stepCall s = .returned s := by
  simp [stepCall, hloaded, hfault, hrunning]

/-- A machine that a step leaves as it is stays so for any number of steps. -/
theorem run_of_step_self {s : State} (h : step s = .next s) (k : Nat) :
    Host.Core.run Sys2Proof.core k s = .next s := by
  induction k with
  | zero => rfl
  | succ k ih => rw [run_succ_of_next h, ih]

/-- Settles O31: the Halted machine is a fixed point of the step, so of the run. -/
theorem haltedStepDoesNothing : Obligations.HaltedStepDoesNothing := by
  unfold Obligations.HaltedStepDoesNothing
  intro s k hloaded hfault hrunning
  have hcall : stepCall s = .returned s := stepCall_of_halted hloaded hfault hrunning
  exact ⟨hcall, run_of_step_self (step_of_returned hcall) k⟩

/-- With the opcode at 255 the operand fetch reads past memory (40_execution_cycle.md R106). -/
theorem fetchOperand_at_255 {s : State} (hpc : s.pc.toNat = 255) :
    s.fetchOperand = .error (.outOfRange ⟨256⟩) := by
  rw [State.fetchOperand_eq, hpc]
  rfl

/-- At a two-byte opcode whose operand fetch fails the step raises that error, with IR the opcode, before any handler
runs (40_execution_cycle.md R106). -/
theorem stepCall_of_operand_error {s : State} {b : Byte} {op : Opcode} {e : Fault} (hr : Ready s)
    (hb : s.busRead s.pc.toNat = .ok b) (hop : Opcode.ofByte b = some op) (ho : op.hasOperand = true)
    (he : s.fetchOperand = .error e) : stepCall s = .raised e ((s.writeIR b).raise e) := by
  have hfetch : (s.writeIR b).fetchOperand = .error e := he
  rw [stepCall_of_opcode hr hb]
  simp [dispatchOpcode, decodeAt, hop, ho, hfetch, raiseInStep]

/-- Settles O33: the fetch wrote IR, the failed operand fetch wrote the record, and no handler ran, BEQ's neither. -/
theorem faultingStepState : Obligations.FaultingStepState := by
  unfold Obligations.FaultingStepState
  intro s b op hready hpc hb hop ho
  have hopcode : s.busRead s.pc.toNat = .ok b := by rw [hpc, hb]
  have hcall := stepCall_of_operand_error hready hopcode hop ho (fetchOperand_at_255 hpc)
  obtain ⟨hloaded, -, hrunning⟩ := hready
  refine ⟨step_of_raised hcall, _, hcall, ?_⟩
  rw [State.raise_outOfRange]
  exact ⟨rfl, rfl, rfl, hrunning, hloaded, ⟨rfl, rfl, rfl, rfl⟩, fun _ => rfl⟩

end Sys2Proof.Machine
end

section
/-! The frame of an instruction that completes: what `completed` leaves unchanged, and how the log grows. -/

namespace Sys2Proof.Machine

theorem exec_eq_next_completed {i : Instr} {s : State} (h : i.length = 2 → s.pc.toNat + 1 < 256) :
    exec i s = .next (completed i s) :=
  (exec_next_iff i s _).mpr ⟨h, rfl⟩

theorem exec_eq_next_completed_of_length_one {i : Instr} (s : State) (h : i.length = 1) :
    exec i s = .next (completed i s) :=
  exec_eq_next_completed fun h2 => by omega

/-- No instruction but STA writes memory (20_memory.md R55). -/
theorem memSame_completed {i : Instr} (s : State) (h : i.opcode ≠ .sta) : MemSame s (completed i s) := by
  intro addr
  cases i with
  | sta _ => exact absurd rfl h
  | lda _ | add _ | jmp _ | sub _ | beq _ | and _ | or _ | xor _ | not | ldx _ | inx | dex | halt => rfl

/-- No instruction but HALT writes `running`, and none writes IR or the bookkeeping fields (10_state.md R27, R31). -/
theorem controlSame_completed {i : Instr} (s : State) (h : i ≠ .halt) : ControlSame s (completed i s) := by
  cases i with
  | halt => exact absurd rfl h
  | lda _ | add _ | sta _ | jmp _ | sub _ | beq _ | and _ | or _ | xor _ | not | ldx _ | inx | dex =>
    exact ⟨rfl, rfl, rfl, rfl⟩

theorem completed_a_of_not_writesA {i : Instr} (s : State) (h : writesA i = false) :
    (completed i s).a = s.a := by
  cases i with
  | sta _ | jmp _ | beq _ | ldx _ | inx | dex | halt => rfl
  | lda _ | add _ | sub _ | and _ | or _ | xor _ | not => cases h

theorem completed_zero_iff_of_writesX {i : Instr} (s : State) (h : writesX i = true) :
    (completed i s).zero = true ↔ (completed i s).x = 0 := by
  rw [completed_zero, effect_zero_of_writesX s h, isZero_eq_true_iff, completed_x]

/-- Only ADD and SUB write carry (10_state.md R28). -/
theorem completed_carry_of_not_add_sub {i : Instr} (s : State) (hadd : i.opcode ≠ .add) (hsub : i.opcode ≠ .sub) :
    (completed i s).carry = s.carry := by
  cases i with
  | add _ => exact absurd rfl hadd
  | sub _ => exact absurd rfl hsub
  | lda _ | sta _ | jmp _ | beq _ | and _ | or _ | xor _ | not | ldx _ | inx | dex | halt => rfl

/-- Every one-byte instruction passes itself, without wrap below 256 (10_state.md R25). -/
theorem completed_pc_toNat_of_length_one {i : Instr} {s : State} (hpc : s.pc.toNat < 256) (h : i.length = 1) :
    (completed i s).pc.toNat = s.pc.toNat + 1 := by
  rw [completed_pc]
  cases i with
  | not | inx | dex | halt => exact pc_add_toNat 1 hpc (by decide)
  | lda _ | add _ | sta _ | jmp _ | sub _ | beq _ | and _ | or _ | xor _ | ldx _ => cases h

theorem openLines_ne_nil (draw start n : Nat) : openLines draw start (1 + n) ≠ [] := by
  simp [openLines, Nat.add_comm 1 n]

/-- No instruction's effect touches the log, so the completed one only appends (10_state.md R35). -/
theorem logGrew_completed (i : Instr) (s : State) : LogGrew s (completed i s) := by
  have hlog : (effect i s).log = s.log := by cases i <;> rfl
  exact ⟨_, openLines_ne_nil _ _ _, by rw [completed, State.logExecuted_log, State.jump_log, hlog]⟩

theorem ready_of_controlSame {s t : State} (hr : Ready s) (h : ControlSame s t) : Ready t := by
  obtain ⟨hloaded, hfault, hrunning⟩ := hr
  obtain ⟨-, htr, htl, htf⟩ := h
  exact ⟨htl.trans hloaded, htf.trans hfault, htr.trans hrunning⟩

end Sys2Proof.Machine
end

section
/-! The statements on INX and DEX (42_arithmetic.md R129, R132, R133). -/

namespace Sys2Proof.Machine

theorem wrapAdd_toNat (a v : Byte) : (wrapAdd a v).toNat = (a.toNat + v.toNat) % 256 := by
  rw [wrapAdd, BitVec.toNat_ofNat]
  exact Nat.mod_mod _ 256

theorem wrapSub_toNat (a v : Byte) : ((wrapSub a v).toNat : Int) = ((a.toNat : Int) - v.toNat) % 256 := by
  rw [wrapSub, BitVec.toNat_ofInt]
  omega

/-- INX and DEX complete at every address; but for the value X takes, they leave the same (42_arithmetic.md R132,
R133). -/
theorem exec_inx_dex_frame {i : Instr} {s : State} (hi : i = .inx ∨ i = .dex) (hpc : s.pc.toNat < 256) :
    exec i s = .next (completed i s) ∧ ((completed i s).zero = true ↔ (completed i s).x = 0) ∧
      (completed i s).pc.toNat = s.pc.toNat + 1 ∧ (completed i s).a = s.a ∧ (completed i s).carry = s.carry ∧
      ControlSame s (completed i s) ∧ MemSame s (completed i s) ∧ LogGrew s (completed i s) := by
  rcases hi with rfl | rfl
  all_goals
    exact ⟨exec_eq_next_completed_of_length_one s rfl, completed_zero_iff_of_writesX s rfl,
      completed_pc_toNat_of_length_one hpc rfl, completed_a_of_not_writesA s rfl,
      completed_carry_of_not_add_sub s nofun nofun, controlSame_completed s nofun, memSame_completed s nofun,
      logGrew_completed _ s⟩

/-- Settles O18: X takes the wrapped sum; from 255 the next PC is 256, where a ready machine halts. -/
theorem inxIncrements : Obligations.InxIncrements := by
  unfold Obligations.InxIncrements
  refine ⟨rfl, fun s hpc => ?_⟩
  obtain ⟨hexec, hzero, hnext, ha, hcarry, hcontrol, hmem, hlog⟩ := exec_inx_dex_frame (.inl rfl) hpc
  refine ⟨_, hexec, wrapAdd_toNat s.x 1, hzero, hnext, ha, hcarry, hcontrol, hmem, hlog, fun h255 hr => ?_⟩
  have hpast : 256 ≤ (completed .inx s).pc.toNat := by omega
  exact ⟨_, step_of_offEnd (ready_of_controlSame hr hcontrol) hpast, State.haltOffEnd_running _⟩

/-- Settles O19: X takes the wrapped difference. -/
theorem dexDecrements : Obligations.DexDecrements := by
  unfold Obligations.DexDecrements
  refine ⟨rfl, fun s hpc => ?_⟩
  obtain ⟨hexec, hframe⟩ := exec_inx_dex_frame (.inr rfl) hpc
  exact ⟨_, hexec, wrapSub_toNat s.x 1, hframe⟩

end Sys2Proof.Machine
end

section
/-! The statement on HALT (43_control.md R142). -/

namespace Sys2Proof.Machine

/-- At a one-byte opcode the step is the instruction of its row (40_execution_cycle.md R104, R105). -/
theorem step_of_no_operand {s : State} {b : Byte} {op : Opcode} (hr : Ready s) (hb : s.busRead s.pc.toNat = .ok b)
    (hop : Opcode.ofByte b = some op) (ho : op.hasOperand = false) : step s = exec (op.instr 0) (s.writeIR b) := by
  rw [step, stepCall_of_opcode hr hb, ← runHandler_outcome]
  simp [dispatchOpcode, decodeAt, hop, ho]

/-- HALT leaves the registers, the flags, IR and the bookkeeping fields (43_control.md R142). -/
theorem completed_halt_frame (s : State) :
    RegsSame s (completed .halt s) ∧ (completed .halt s).ir = s.ir ∧ (completed .halt s).loaded = s.loaded ∧
      (completed .halt s).fault = s.fault :=
  ⟨⟨rfl, rfl, rfl, rfl⟩, rfl, rfl, rfl⟩

@[simp] theorem completed_halt_running (s : State) : (completed .halt s).running = false := rfl

/-- A ready machine that fetches 0xFF executes HALT (30_encoding.md R84). -/
theorem step_of_halt_byte {s : State} (hr : Ready s) (hb : s.busRead s.pc.toNat = .ok 0xFF) :
    step s = .next (completed .halt (s.writeIR 0xFF)) :=
  (step_of_no_operand hr hb (Opcode.ofByte_byte .halt) rfl).trans (exec_eq_next_completed_of_length_one _ rfl)

/-- A load that succeeds leaves a ready machine, whatever it found (70_reset_and_hazards.md R230). -/
theorem ready_of_loadProgram_ok {bytes : List Byte} {offset : Byte} {s t : State}
    (h : s.loadProgram bytes offset = .ok t) : Ready t := by
  obtain ⟨m, rfl⟩ := State.loadProgram_ok h
  exact ⟨rfl, rfl, rfl⟩

/-- Settles O22: HALT completes into a Halted machine without a fault, which is a fixed point of the step. -/
theorem haltStops : Obligations.HaltStops := by
  unfold Obligations.HaltStops
  refine ⟨rfl, fun s hpc => ?_, fun s hr hb => ?_⟩
  · obtain ⟨hregs, hir, hloaded, hfault⟩ := completed_halt_frame s
    exact ⟨_, exec_eq_next_completed_of_length_one s rfl, completed_halt_running s,
      completed_pc_toNat_of_length_one hpc rfl, hregs, hir, hloaded, hfault, memSame_completed s nofun,
      logGrew_completed _ s⟩
  · have hpc : (s.writeIR 0xFF).pc.toNat < 256 := lt_256_of_busRead_ok hb
    have hstep := step_of_halt_byte hr hb
    obtain ⟨-, -, hloaded, hfault⟩ := completed_halt_frame (s.writeIR 0xFF)
    obtain ⟨hsloaded, hsfault, -⟩ := hr
    have hfixed := step_of_returned <|
      stepCall_of_halted (hloaded.trans hsloaded) (hfault.trans hsfault) (completed_halt_running _)
    exact ⟨_, hstep, completed_halt_running _, completed_pc_toNat_of_length_one hpc rfl,
      run_of_step_self hfixed, fun _ _ _ hload => ready_of_loadProgram_ok hload⟩

end Sys2Proof.Machine
end

section
/-! The statement on NOT (44_logic.md R153). -/

namespace Sys2Proof.Machine

theorem completed_x_of_not_writesX {i : Instr} (s : State) (h : writesX i = false) :
    (completed i s).x = s.x := by
  cases i with
  | lda _ | add _ | sta _ | jmp _ | sub _ | beq _ | and _ | or _ | xor _ | not | halt => rfl
  | ldx _ | inx | dex => cases h

theorem completed_zero_iff_of_writesA {i : Instr} (s : State) (h : writesA i = true) :
    (completed i s).zero = true ↔ (completed i s).a = 0 := by
  rw [completed_zero, effect_zero_of_writesA s h, isZero_eq_true_iff, completed_a]

@[simp] theorem completed_not_a (s : State) : (completed .not s).a = ~~~ s.a := rfl

/-- Two NOTs restore A (44_logic.md R153). -/
theorem a_of_exec_not_exec_not {s t u : State} (hst : exec .not s = .next t) (htu : exec .not t = .next u) :
    u.a = s.a := by
  rw [← completed_of_exec_next htu, completed_not_a, ← completed_of_exec_next hst, completed_not_a, BitVec.not_not]

/-- Settles O26: A takes its complement at every address, and a second NOT complements it back. -/
theorem notComplements : Obligations.NotComplements := by
  unfold Obligations.NotComplements
  refine ⟨rfl, fun s hpc => ?_⟩
  have hexec := exec_eq_next_completed_of_length_one (i := .not) s rfl
  exact ⟨_, hexec, completed_not_a s, BitVec.toNat_not, completed_zero_iff_of_writesA s rfl,
    completed_pc_toNat_of_length_one hpc rfl, completed_x_of_not_writesX s rfl,
    completed_carry_of_not_add_sub s nofun nofun, controlSame_completed s nofun, memSame_completed s nofun,
    logGrew_completed _ s, fun _ => a_of_exec_not_exec_not hexec⟩

end Sys2Proof.Machine
end

section
/-! The statement on the operand token in pass 2 (45_assembler.md R172 to R174, R177). -/

namespace Sys2Proof.Machine

/-- The label table comes first; the literal counts only for a token that names no label (45_assembler.md R174). -/
theorem resolve_eq_some_iff {labels : LabelTable} {t : Token} {v : Nat} :
    resolve labels t = some v ↔
      labels.lookup t = some v ∨ (labels.lookup t = none ∧ parseLiteral t = some v) := by
  unfold resolve
  cases labels.lookup t with
  | none => simp
  | some w => simp

theorem resolve_eq_none_iff {labels : LabelTable} {t : Token} :
    resolve labels t = none ↔ labels.lookup t = none ∧ parseLiteral t = none := by
  unfold resolve
  cases labels.lookup t with
  | none => simp
  | some w => simp

section PassTwoEntry
variable {labels : LabelTable} {e : QueueEntry} {t : Token} {rest : List Token} {v : Nat}

theorem passTwoEntry_of_no_args (hop : e.op.hasOperand = true) (hargs : e.args = []) :
    passTwoEntry labels e = .error (.missingOperand (mnemonicOf e.op) e.line) := by
  simp only [passTwoEntry, hop, hargs, if_true]

theorem passTwoEntry_of_unresolved (hop : e.op.hasOperand = true) (hargs : e.args = t :: rest)
    (hres : resolve labels t = none) : passTwoEntry labels e = .error (.invalidOperand t e.line) := by
  simp only [passTwoEntry, hop, hargs, hres, if_true]

theorem passTwoEntry_of_resolved (hop : e.op.hasOperand = true) (hargs : e.args = t :: rest)
    (hres : resolve labels t = some v) :
    passTwoEntry labels e =
      if v ≤ 255 then .ok [e.op.byte, BitVec.ofNat 8 v] else .error (.invalidOperand t e.line) := by
  simp only [passTwoEntry, hop, hargs, hres, if_true]

end PassTwoEntry

/-- Settles O56: what an entry gives depends on its first operand token alone, through the value it resolves to. -/
theorem operandTokenRule : Obligations.OperandTokenRule := by
  unfold Obligations.OperandTokenRule
  intro labels e hop
  refine ⟨passTwoEntry_of_no_args hop, fun t rest hargs => ⟨fun hlabel hliteral => ?_, fun v hv => ?_⟩⟩
  · exact passTwoEntry_of_unresolved hop hargs (resolve_eq_none_iff.mpr ⟨hlabel, hliteral⟩)
  · have hbytes := passTwoEntry_of_resolved hop hargs (resolve_eq_some_iff.mpr hv)
    exact ⟨fun hlarge => hbytes.trans (if_neg (Nat.not_le.mpr hlarge)), fun hsmall => hbytes.trans (if_pos hsmall)⟩

end Sys2Proof.Machine
end

section
/-! The statement on the carry flag (70_reset_and_hazards.md R238). -/

namespace Sys2Proof.Machine

@[simp] theorem addCarry_eq_true_iff (a v : Byte) : addCarry a v = true ↔ a.toNat + v.toNat > 255 :=
  decide_eq_true_iff

/-- A borrow is a difference below 0, so an A below the operand (10_state.md R28). -/
@[simp] theorem subBorrow_eq_true_iff (a v : Byte) : subBorrow a v = true ↔ a.toNat < v.toNat := by
  rw [subBorrow, decide_eq_true_iff]
  omega

@[simp] theorem completed_add_carry (v : Byte) (s : State) : (completed (.add v) s).carry = addCarry s.a v := rfl
@[simp] theorem completed_sub_carry (v : Byte) (s : State) : (completed (.sub v) s).carry = subBorrow s.a v := rfl

@[simp] theorem State.snapshot_carry (s : State) : s.snapshot.carry = s.carry := rfl

/-- A step that answers a next state did nothing, halted past memory, skipped a byte, or completed an instruction with
the opcode that stands at PC (40_execution_cycle.md R108). -/
theorem step_next_cases {s t : State} (h : step s = .next t) :
    t = s ∨ t = s.haltOffEnd ∨ (∃ b, t = (s.writeIR b).skipUnknown) ∨
      ∃ i, s.busRead s.pc.toNat = .ok i.opcode.byte ∧ exec i (s.writeIR i.opcode.byte) = .next t := by
  have hcall := stepCall_of_step_next h
  rcases stepCall_cases s with
    ⟨_, hs⟩ | ⟨_, _, _, hs⟩ | ⟨_, _, _, hs⟩ | ⟨_, _, hs⟩ | ⟨b, _, _, _, _, hs⟩ | ⟨_, _, _, _, _, _, _, hs⟩ |
    ⟨b, op, v, _, _, hb, hop, _, hs⟩ <;> rw [hs] at hcall
  · cases hcall
  · cases hcall
  · cases hcall
    exact .inl rfl
  · cases hcall
    exact .inr (.inl rfl)
  · cases hcall
    exact .inr (.inr (.inl ⟨b, rfl⟩))
  · cases hcall
  · obtain rfl := Opcode.byte_of_ofByte hop
    rw [step, hs, runHandler_outcome] at h
    exact .inr (.inr (.inr ⟨op.instr v, by rwa [Opcode.instr_opcode], by rwa [Opcode.instr_opcode]⟩))

/-- An instruction that is no ADD or SUB completes with the carry it found (70_reset_and_hazards.md R238). -/
theorem exec_next_carry_of_not_add_sub {i : Instr} {s t : State} (h : exec i s = .next t) (hadd : i.opcode ≠ .add)
    (hsub : i.opcode ≠ .sub) : t.carry = s.carry := by
  rw [← completed_of_exec_next h]
  exact completed_carry_of_not_add_sub s hadd hsub

/-- A step that finds neither ADD's nor SUB's byte at PC keeps carry (70_reset_and_hazards.md R238). -/
theorem step_next_carry_of_not_add_sub {s t : State} (h : step s = .next t)
    (hadd : s.busRead s.pc.toNat ≠ .ok Opcode.add.byte) (hsub : s.busRead s.pc.toNat ≠ .ok Opcode.sub.byte) :
    t.carry = s.carry := by
  rcases step_next_cases h with rfl | rfl | ⟨b, rfl⟩ | ⟨i, hb, hexec⟩
  · rfl
  · exact State.haltOffEnd_carry s
  · rw [State.skipUnknown_carry, State.writeIR_carry]
  · have hkept := exec_next_carry_of_not_add_sub hexec (fun hi => hadd (hi ▸ hb)) (fun hi => hsub (hi ▸ hb))
    rwa [State.writeIR_carry] at hkept

/-- Settles O45: only the arms of ADD and SUB write carry, and a step runs those only from their own opcode bytes. -/
theorem carryStaysStale : Obligations.CarryStaysStale := by
  unfold Obligations.CarryStaysStale
  refine ⟨fun v s t h => ?_, fun v s t h => ?_, fun i s t h hadd hsub => ?_, fun s t h hadd hsub => ?_⟩
  · rw [← completed_of_exec_next h, completed_add_carry, addCarry_eq_true_iff]
  · rw [← completed_of_exec_next h, completed_sub_carry, subBorrow_eq_true_iff]
  · exact exec_next_carry_of_not_add_sub h hadd hsub
  · exact step_next_carry_of_not_add_sub h hadd hsub

end Sys2Proof.Machine
end

section
/-! The statements on the decoder and the encoder: one instruction, a byte with no handler, a whole byte sequence. -/

namespace Sys2Proof

theorem Instr.opcode_instr_operand (i : Instr) : i.opcode.instr (i.operand.getD 0) = i := by
  cases i <;> rfl

/-- A one-byte instruction takes nothing from the byte it is made with. -/
theorem Opcode.instr_of_no_operand {op : Opcode} (h : op.hasOperand = false) (v w : Byte) :
    op.instr v = op.instr w := by
  cases op with
  | not | inx | dex | halt => rfl
  | lda | add | sta | jmp | sub | beq | and | or | xor | ldx => cases h

/-- The first item of a byte sequence is an instruction or a skip, whose bytes stand at its front; else the sequence is
one opcode whose operand byte is missing (30_encoding.md R88). -/
theorem decode_cons_cases (b : Byte) (tail : List Byte) :
    (∃ d rest, decode (b :: tail) = .ok (d, rest) ∧ decodeAll (b :: tail) = .whole d :: decodeAll rest ∧
      (StreamItem.whole d).bytes ++ rest = b :: tail ∧ rest.length < (b :: tail).length) ∨
    (tail = [] ∧ decode (b :: tail) = .error (.operandMissing b) ∧ decodeAll (b :: tail) = [.cut b]) := by
  rcases decodeAt_cases b (operandIn b tail) with
    ⟨hop, hd⟩ | ⟨op, hop, ho, hd⟩ | ⟨op, v, hop, ho, hv, hd⟩ | ⟨op, e, hop, ho, he, hd⟩
  · refine .inl ⟨.skip b, tail, by simp [decode, hd, Decoded.length], ?_, rfl, by simp⟩
    cases tail <;> simp [decodeAll, hop]
  · obtain rfl := Opcode.byte_of_ofByte hop
    refine .inl ⟨.instr (op.instr 0), tail, ?_, ?_, by simp [StreamItem.bytes, encode_instr, ho], by simp⟩
    · simp [decode, hd, Decoded.length, Opcode.instr_length, Opcode.length, ho]
    · cases tail <;> simp [decodeAll, ho]
  · obtain rfl := Opcode.byte_of_ofByte hop
    cases tail with
    | nil => cases hv
    | cons w rest =>
      cases hv
      refine .inl ⟨.instr (op.instr v), rest, ?_, ?_, by simp [StreamItem.bytes, encode_instr, ho], by simp⟩
      · simp [decode, hd, Decoded.length, Opcode.instr_length, Opcode.length, ho]
      · simp [decodeAll, ho]
  · cases tail with
    | nil =>
      cases he
      exact .inr ⟨rfl, by simp [decode, hd], by simp [decodeAll, hop, ho]⟩
    | cons w rest => cases he

/-- Decoding an instruction's bytes gives it back, whatever follows them (30_encoding.md R82, R88). -/
theorem decode_encode_append (i : Instr) (rest : List Byte) : decode (encode i ++ rest) = .ok (.instr i, rest) := by
  rw [← i.opcode_instr_operand, encode_instr]
  cases ho : i.opcode.hasOperand with
  | true => simp [decode, decodeAt, operandIn, ho, Decoded.length, Opcode.instr_length, Opcode.length]
  | false =>
    rw [Opcode.instr_of_no_operand ho _ 0]
    simp [decode, decodeAt, ho, Decoded.length, Opcode.instr_length, Opcode.length]

theorem decodeAll_of_decode {bytes rest : List Byte} {d : Decoded} (h : decode bytes = .ok (d, rest)) :
    decodeAll bytes = .whole d :: decodeAll rest := by
  cases bytes with
  | nil => cases h
  | cons b tail =>
    rcases decode_cons_cases b tail with ⟨d', rest', hd, hall, -, -⟩ | ⟨-, hd, -⟩ <;> rw [h] at hd <;> cases hd
    exact hall

/-- Settles O5: every instruction is well formed, so the hypothesis is not needed. -/
theorem decodeOfEncode : Obligations.DecodeOfEncode := by
  unfold Obligations.DecodeOfEncode
  exact fun i rest _ => decode_encode_append i rest

/-- Settles O8: the two decoders agree on the first item, whatever it is. -/
theorem decodeAllFollowsDecode : Obligations.DecodeAllFollowsDecode := by
  unfold Obligations.DecodeAllFollowsDecode
  exact fun bytes rest d h => decodeAll_of_decode h

/-- Settles O6, by induction on the program: its first instruction is decoded off the front. -/
theorem decodeAllOfEncodeAll : Obligations.DecodeAllOfEncodeAll := by
  unfold Obligations.DecodeAllOfEncodeAll
  intro is _
  induction is with
  | nil => rfl
  | cons i is ih =>
    rw [encodeAll, List.flatMap_cons, decodeAll_of_decode (decode_encode_append i _), List.map_cons]
    exact congrArg _ (ih fun j hj => by simp_all)

/-- Settles O7, by induction on the number of bytes: the first item's bytes are the front of the sequence. -/
theorem bytesOfDecodeAll : Obligations.BytesOfDecodeAll := by
  unfold Obligations.BytesOfDecodeAll
  intro bytes
  induction hn : bytes.length using Nat.strong_induction_on generalizing bytes with
  | _ n ih =>
    subst hn
    cases bytes with
    | nil => rfl
    | cons b tail =>
      rcases decode_cons_cases b tail with ⟨d, rest, -, hall, hbytes, hlt⟩ | ⟨rfl, -, hall⟩
      · rw [hall, List.flatMap_cons, ih _ hlt rest rfl, hbytes]
      · rw [hall]
        rfl

/-- The bytes with no handler: 0x00, and 0x0E to 0xFE (30_encoding.md R85). -/
theorem Opcode.ofByte_eq_none_iff (b : Byte) :
    Opcode.ofByte b = none ↔ b = 0x00 ∨ (0x0E ≤ b.toNat ∧ b.toNat ≤ 0xFE) := by
  have hno : Opcode.ofByte b = none ↔ ∀ op : Opcode, op.byte ≠ b := by
    simp only [Option.eq_none_iff_forall_ne_some, ne_eq, Opcode.ofByte_eq_some_iff]
  rw [hno]
  constructor
  · intro h
    have hrow (op : Opcode) : op.byte.toNat ≠ b.toNat := fun he => h op (BitVec.eq_of_toNat_eq he)
    have hlow : ¬ ((1 ≤ b.toNat ∧ b.toNat ≤ 9) ∨ b = 0x0B) := fun hb => by
      obtain ⟨op, rfl⟩ := Opcode.exists_byte_eq hb
      exact h op rfl
    have hnot := hrow .not
    have hinx := hrow .inx
    have hdex := hrow .dex
    have hhalt := hrow .halt
    simp only [Opcode.byte] at hnot hinx hdex hhalt
    bv_omega
  · rintro h op rfl
    revert h
    cases op <;> decide

/-- The decoder skips a byte exactly where the map has no row for it (30_encoding.md R85). -/
theorem decode_eq_skip_iff (b : Byte) (rest : List Byte) :
    decode (b :: rest) = .ok (.skip b, rest) ↔ Opcode.ofByte b = none := by
  rcases decodeAt_cases b (operandIn b rest) with
    ⟨hop, hd⟩ | ⟨op, hop, ho, hd⟩ | ⟨op, v, hop, ho, hv, hd⟩ | ⟨op, e, hop, ho, he, hd⟩
  · simp [decode, hd, hop, Decoded.length]
  all_goals simp [decode, hd, hop]

/-- Settles O3: the decoder skips where the map has no row; the 242 are counted out. -/
theorem unknownOpcodesAreSkips : Obligations.UnknownOpcodesAreSkips := by
  unfold Obligations.UnknownOpcodesAreSkips
  exact ⟨fun b rest => (decode_eq_skip_iff b rest).trans (Opcode.ofByte_eq_none_iff b), by decide +kernel⟩

/-- Settles O4: each word is decoded by evaluation. -/
theorem sampleWordsDecode : Obligations.SampleWordsDecode := by
  unfold Obligations.SampleWordsDecode
  decide

end Sys2Proof
end

section
/-! The step by what stands at PC, in its remaining cases, and its two inversions with every handler run: what a step
that answers can have done, and what a step that raises an error can have met. -/

namespace Sys2Proof.Machine

theorem stepCall_of_unloaded {s : State} (h : s.loaded = false) : stepCall s = .refused .unloaded := by
  simp [stepCall, h]

theorem step_of_unloaded {s : State} (h : s.loaded = false) : step s = .refused .unloaded := by
  rw [step, stepCall_of_unloaded h, StepResult.outcome]

theorem stepCall_of_faulted {s : State} {r : OutOfRange} (hloaded : s.loaded = true) (hfault : s.fault = some r) :
    stepCall s = .raised (.outOfRange r) s := by
  simp [stepCall, hloaded, hfault]

/-- A handler whose bytes all lie in memory returns what its instruction leaves (40_execution_cycle.md R105). -/
theorem runHandler_of_fits {i : Instr} {s : State} (h : s.pc.toNat + i.length ≤ 256) :
    runHandler i s = .returned (completed i s) := by
  rw [runHandler, exec_eq_next_completed fun h2 => by omega]

/-- What a step that answers can have done (40_execution_cycle.md R108). -/
theorem stepCall_returned_cases {s t : State} (h : stepCall s = .returned t) :
    t = s ∨ (Ready s ∧ t = s.haltOffEnd) ∨ (∃ b, Ready s ∧ s.pc.toNat < 256 ∧ t = (s.writeIR b).skipUnknown) ∨
      ∃ b i, Ready s ∧ s.pc.toNat + i.length ≤ 256 ∧ t = completed i (s.writeIR b) := by
  rcases stepCall_cases s with
    ⟨_, hs⟩ | ⟨_, _, _, hs⟩ | ⟨_, _, _, hs⟩ | ⟨hr, _, hs⟩ | ⟨b, hr, hpc, _, _, hs⟩ | ⟨_, _, _, _, _, _, _, hs⟩ |
    ⟨b, op, v, hr, hfits, _, _, _, hs⟩ <;> rw [hs] at h
  · cases h
  · cases h
  · cases h
    exact .inl rfl
  · cases h
    exact .inr (.inl ⟨hr, rfl⟩)
  · cases h
    exact .inr (.inr (.inl ⟨b, hr, hpc, rfl⟩))
  · cases h
  · rw [← Opcode.instr_length op v] at hfits
    rw [runHandler_of_fits (by simpa using hfits)] at h
    cases h
    exact .inr (.inr (.inr ⟨b, op.instr v, hr, hfits, rfl⟩))

/-- What a step that raises an error can have met: a fault recorded before, or a two-byte opcode at 255
(40_execution_cycle.md R106, R111). -/
theorem stepCall_raised_cases {s t : State} {e : Fault} (h : stepCall s = .raised e t) :
    (∃ r, s.loaded = true ∧ s.fault = some r ∧ e = .outOfRange r ∧ t = s) ∨
    ∃ b op, Ready s ∧ s.pc.toNat = 255 ∧ s.busRead s.pc.toNat = .ok b ∧ Opcode.ofByte b = some op ∧
      op.hasOperand = true ∧ e = .outOfRange ⟨256⟩ ∧ t = (s.writeIR b).raise (.outOfRange ⟨256⟩) := by
  rcases stepCall_cases s with
    ⟨_, hs⟩ | ⟨r, hloaded, hfault, hs⟩ | ⟨_, _, _, hs⟩ | ⟨_, _, hs⟩ | ⟨_, _, _, _, _, hs⟩ |
    ⟨b, op, hr, hpc, hb, hop, ho, hs⟩ | ⟨b, op, v, _, hfits, _, _, _, hs⟩ <;> rw [hs] at h
  · cases h
  · cases h
    exact .inl ⟨r, hloaded, hfault, rfl, rfl⟩
  · cases h
  · cases h
  · cases h
  · cases h
    exact .inr ⟨b, op, hr, hpc, hb, hop, ho, rfl, rfl⟩
  · rw [← Opcode.instr_length op v] at hfits
    rw [runHandler_of_fits (by simpa using hfits)] at h
    cases h

/-- At an opcode whose operand byte, if it has one, lies in memory the step is the instruction the two make, with IR the
opcode (40_execution_cycle.md R103 to R106). -/
theorem step_of_opcode {s : State} {b v : Byte} {op : Opcode} (hr : Ready s) (hb : s.busRead s.pc.toNat = .ok b)
    (hop : Opcode.ofByte b = some op) (hv : op.hasOperand = true → s.busRead (s.pc.toNat + 1) = .ok v) :
    step s = exec (op.instr v) (s.writeIR b) := by
  cases ho : op.hasOperand with
  | true => exact step_of_operand hr hb hop ho (hv ho)
  | false => rw [step_of_no_operand hr hb hop ho, Opcode.instr_of_no_operand ho 0 v]

/-- Settles O12: an error recorded before is an OutOfRange, and so is the operand fetch's. -/
theorem notAttachedNeverRaised : Obligations.NotAttachedNeverRaised := by
  unfold Obligations.NotAttachedNeverRaised
  intro s t h
  rcases stepCall_raised_cases h with ⟨_, _, _, he, _⟩ | ⟨_, _, _, _, _, _, _, he, _⟩ <;> cases he

/-- Settles O34: the faulted machine is what its step leaves, so every later step raises the same. -/
theorem faultIsSticky : Obligations.FaultIsSticky := by
  unfold Obligations.FaultIsSticky
  intro s r hloaded hfault
  have hcall := stepCall_of_faulted hloaded hfault
  exact ⟨hcall, run_succ_of_fault (step_of_raised hcall)⟩

/-- Settles O27: an instruction of length 2 is one with an operand, whose fetch comes before anything else. -/
theorem operandFetchFaults : Obligations.OperandFetchFaults := by
  unfold Obligations.OperandFetchFaults
  intro i s hlen hpc
  have hout : ¬ s.pc.toNat + 1 < Config.memSize := Nat.not_lt.mpr hpc
  cases i with
  | not | inx | dex | halt => cases hlen
  | lda v => rw [exec_lda_eq, if_neg hout]
  | add v => rw [exec_add_eq, if_neg hout]
  | sta d => rw [exec_sta_eq, if_neg hout]
  | jmp d => rw [exec_jmp_eq, if_neg hout]
  | sub v => rw [exec_sub_eq, if_neg hout]
  | beq d => rw [exec_beq_eq, if_neg hout]
  | and v => rw [exec_and_eq, if_neg hout]
  | or v => rw [exec_or_eq, if_neg hout]
  | xor v => rw [exec_xor_eq, if_neg hout]
  | ldx v => rw [exec_ldx_eq, if_neg hout]

end Sys2Proof.Machine
end

section
/-! The statements on the invariant: at reset, over a step, over a request of the host. -/

namespace Sys2Proof.Machine

/-- Without a recorded fault the invariant is the bounds alone. -/
theorem inv_of_no_fault {s : State} (hmem : s.mem.wf) (hpc : s.pc.toNat ≤ 256) (hlog : s.log.length ≤ 15)
    (hfault : s.fault = none) : Inv s :=
  ⟨hmem, hpc, hlog, fun _ r hr => by rw [hfault] at hr; cases hr⟩

/-- Only STA writes memory, and its address is below 256 (20_memory.md R55, 30_encoding.md R83). -/
theorem effect_mem_wf (i : Instr) {s : State} (h : s.mem.wf) : (effect i s).mem.wf := by
  cases i with
  | sta d => exact putCell_canonical _ _ _ d.isLt h
  | lda _ | add _ | jmp _ | sub _ | beq _ | and _ | or _ | xor _ | not | ldx _ | inx | dex | halt => exact h

/-- The PC an instruction hands on is at most 256 where its bytes lie in memory (10_state.md R24). -/
theorem nextPC_le {i : Instr} {s : State} (h : s.pc.toNat + i.length ≤ 256) : (nextPC i s).toNat ≤ 256 := by
  have target (d : Byte) : (absoluteTarget d).toNat ≤ 256 := by
    have := d.isLt
    rw [absoluteTarget_toNat]
    omega
  have passed (n : Nat) (hn : 0 < n ∧ n ≤ 2) (hle : s.pc.toNat + n ≤ 256) :
      (s.pc + BitVec.ofNat 9 n).toNat ≤ 256 := by
    rwa [pc_add_toNat n (by omega) hn.2]
  cases i with
  | jmp d => exact target d
  | beq d =>
    cases hz : s.zero with
    | true => simpa [nextPC, hz] using target d
    | false => simpa [nextPC, hz] using passed 2 (by decide) h
  | not | inx | dex | halt => exact passed 1 (by decide) h
  | lda _ | add _ | sta _ | sub _ | and _ | or _ | xor _ | ldx _ => exact passed 2 (by decide) h

theorem completed_fault (i : Instr) (s : State) : (completed i s).fault = s.fault := by
  cases i <;> rfl

theorem logGrew_length_le {s t : State} (h : LogGrew s t) (hlog : s.log.length ≤ 15) : t.log.length ≤ 15 := by
  obtain ⟨entries, -, ht⟩ := h
  rw [ht]
  exact foldl_pushEntry_length entries _ hlog

/-- An instruction that completes keeps the invariant (10_state.md R24, R35). -/
theorem inv_completed {i : Instr} {s : State} (hinv : Inv s) (hfault : s.fault = none)
    (hfits : s.pc.toNat + i.length ≤ 256) : Inv (completed i s) := by
  obtain ⟨hmem, -, hlog, -⟩ := hinv
  exact inv_of_no_fault (effect_mem_wf i hmem) (nextPC_le hfits) (logGrew_length_le (logGrew_completed i s) hlog)
    ((completed_fault i s).trans hfault)

/-- The skip and the off-end halt keep the invariant: they append to the log, and the skip moves PC to 256 at most. -/
theorem inv_skipUnknown {s : State} (hinv : Inv s) (hfault : s.fault = none) (hpc : s.pc.toNat < 256) :
    Inv s.skipUnknown := by
  obtain ⟨hmem, -, hlog, -⟩ := hinv
  refine inv_of_no_fault hmem ?_ (foldl_pushEntry_length _ _ hlog) hfault
  show (s.pc + BitVec.ofNat 9 1).toNat ≤ 256
  rw [pc_add_toNat 1 hpc (by decide)]
  exact hpc

theorem inv_haltOffEnd {s : State} (hinv : Inv s) (hfault : s.fault = none) : Inv s.haltOffEnd := by
  obtain ⟨hmem, hpc, hlog, -⟩ := hinv
  exact inv_of_no_fault hmem hpc (foldl_pushEntry_length _ _ hlog) hfault

theorem inv_writeIR {s : State} (b : Byte) (hinv : Inv s) : Inv (s.writeIR b) := hinv

/-- The error of the operand fetch at 255 leaves a machine that the record fits (40_execution_cycle.md R111). -/
theorem inv_raise_outOfRange {s : State} (hinv : Inv s) (hpc : s.pc.toNat = 255) (hrunning : s.running = true) :
    Inv (s.raise (.outOfRange ⟨256⟩)) := by
  obtain ⟨hmem, hle, hlog, -⟩ := hinv
  rw [State.raise_outOfRange]
  exact ⟨hmem, hle, foldl_pushEntry_length _ _ hlog, fun _ r hr => ⟨(Option.some.inj hr).symm, hpc, hrunning⟩⟩

theorem inv_of_stepCall_returned {s t : State} (hinv : Inv s) (h : stepCall s = .returned t) : Inv t := by
  rcases stepCall_returned_cases h with rfl | ⟨⟨-, hfault, -⟩, rfl⟩ | ⟨b, ⟨-, hfault, -⟩, hpc, rfl⟩ |
    ⟨b, i, ⟨-, hfault, -⟩, hfits, rfl⟩
  · exact hinv
  · exact inv_haltOffEnd hinv hfault
  · exact inv_skipUnknown (inv_writeIR b hinv) hfault hpc
  · exact inv_completed (inv_writeIR b hinv) hfault hfits

theorem inv_of_stepCall_raised {s t : State} {e : Fault} (hinv : Inv s) (h : stepCall s = .raised e t) : Inv t := by
  rcases stepCall_raised_cases h with ⟨_, -, -, -, rfl⟩ | ⟨b, _, ⟨-, -, hrunning⟩, hpc, -, -, -, -, rfl⟩
  · exact hinv
  · exact inv_raise_outOfRange (inv_writeIR b hinv) hpc hrunning

/-- Settles O37, from the two inversions of the step. -/
theorem stepKeepsInv : Obligations.StepKeepsInv := by
  unfold Obligations.StepKeepsInv
  exact fun s hinv => ⟨fun t h => inv_of_stepCall_returned hinv (stepCall_of_step_next h),
    fun e t h => inv_of_stepCall_raised hinv h⟩

/-- Settles O36: the reset machine has no fault, and its memory and log are empty. -/
theorem invHoldsAtReset : Obligations.InvHoldsAtReset := by
  unfold Obligations.InvHoldsAtReset
  exact inv_of_no_fault (by decide) (by decide) (by decide) rfl

theorem openLines_length (draw start n : Nat) : (openLines draw start n).length = n := by
  simp [openLines]

/-- The free values of an unspecified machine lie within the fields' bounds, and it is not loaded (10_state.md R24, R35,
R37). -/
theorem inv_unspecified (draw : Nat) (fault : Option OutOfRange) : Inv (State.unspecified draw fault) := by
  refine ⟨Memory.ofFn_wf _, ?_, ?_, fun hloaded => by cases hloaded⟩
  · have := (Config.unspecifiedPC draw).isLt
    simp only [State.unspecified, BitVec.toNat_ofNat, Config.memSize] at this ⊢
    omega
  · have := (Config.unspecifiedLogLength draw).isLt
    simp only [State.unspecified, openLines_length]
    omega

theorem inv_of_loadProgram_ok {bytes : List Byte} {offset : Byte} {s t : State} (hinv : Inv s)
    (h : s.loadProgram bytes offset = .ok t) : Inv t := by
  obtain ⟨hwf, -⟩ := hinv
  rcases State.loadProgram_cases bytes offset s with ⟨_, hs⟩ | ⟨_, m, hs, hm⟩ <;> rw [hs] at h <;> cases h
  have hpc : (absoluteTarget offset).toNat ≤ 256 := by
    rw [absoluteTarget_toNat]
    exact Nat.le_of_lt offset.isLt
  exact inv_of_no_fault (hm hwf).1 hpc (Nat.zero_le _) rfl

/-- A load that fails leaves a machine whose fields are unspecified, but for the record of a fault
(70_reset_and_hazards.md R231). -/
theorem State.loadProgram_failed {bytes : List Byte} {offset : Byte} {s t : State} {e : LoadError}
    (h : s.loadProgram bytes offset = .failed e t) : t = State.unspecified s.draws s.fault := by
  rcases State.loadProgram_cases bytes offset s with ⟨_, hs⟩ | ⟨_, m, hs, _⟩ <;> rw [hs] at h <;> cases h
  rfl

/-- What a request can leave: the state of a load, of a step, or the machine as it was (40_execution_cycle.md R113). -/
theorem serve_state_cases {request : Request} {s t : State} (h : (serve request s).state = some t) :
    (∃ bytes offset, request = .loadProgram bytes offset ∧
      (s.loadProgram bytes offset = .ok t ∨ ∃ e, s.loadProgram bytes offset = .failed e t)) ∨
    (request = .step ∧ (stepCall s = .returned t ∨ ∃ e, stepCall s = .raised e t)) ∨ t = s := by
  cases request with
  | loadProgram bytes offset =>
    refine .inl ⟨bytes, offset, rfl, ?_⟩
    simp only [serve] at h
    cases hl : s.loadProgram bytes offset with
    | ok u => simp_all [Answer.state]
    | failed e u => simp_all [Answer.state]
  | step =>
    refine .inr (.inl ⟨rfl, ?_⟩)
    simp only [serve] at h
    cases hc : stepCall s with
    | returned u => simp_all [Answer.state]
    | raised e u => simp_all [Answer.state]
    | refused r => simp_all [Answer.state]
  | snapshot => exact .inr (.inr (Option.some.inj h).symm)
  | readMemory addr => exact .inr (.inr (Option.some.inj ((serve_readMemory_state addr s).symm.trans h)).symm)
  | compile lines => exact .inr (.inr (Option.some.inj ((serve_compile_state lines s).symm.trans h)).symm)

/-- Settles O38: a request leaves what a load or a step leaves, or nothing new. -/
theorem hostCallsKeepInv : Obligations.HostCallsKeepInv := by
  unfold Obligations.HostCallsKeepInv
  intro request s t hinv h
  rcases serve_state_cases h with ⟨_, _, -, hl | ⟨_, hl⟩⟩ | ⟨-, hs | ⟨_, hs⟩⟩ | rfl
  · exact inv_of_loadProgram_ok hinv hl
  · rw [State.loadProgram_failed hl]
    exact inv_unspecified _ _
  · exact inv_of_stepCall_returned hinv hs
  · exact inv_of_stepCall_raised hinv hs
  · exact hinv

/-- Settles O35: a recorded fault is the invariant's, a new one the operand fetch's at 255. -/
theorem onlyOperandFetchFaults : Obligations.OnlyOperandFetchFaults := by
  unfold Obligations.OnlyOperandFetchFaults
  intro s t e hinv h
  rcases stepCall_raised_cases h with ⟨r, hloaded, hfault, rfl, rfl⟩ | ⟨b, op, -, hpc, hb, hop, ho, rfl, -⟩
  · obtain ⟨-, -, -, hrecord⟩ := hinv
    obtain ⟨rfl, hpc, -⟩ := hrecord hloaded r hfault
    exact ⟨rfl, hpc, fun hnone => by rw [hfault] at hnone; cases hnone⟩
  · exact ⟨rfl, hpc, fun _ => ⟨b, op, hpc ▸ hb, hop, ho⟩⟩

/-- A step keeps a recorded fault: it is refused, or raises that fault and leaves the machine as it was. -/
theorem stepCall_keeps_fault {s t : State} {r : OutOfRange} (hfault : s.fault = some r)
    (h : stepCall s = .returned t ∨ ∃ e, stepCall s = .raised e t) : t.fault = some r := by
  cases hloaded : s.loaded with
  | false =>
    rw [stepCall_of_unloaded hloaded] at h
    rcases h with h | ⟨_, h⟩ <;> cases h
  | true =>
    rw [stepCall_of_faulted hloaded hfault] at h
    rcases h with h | ⟨_, h⟩ <;> cases h
    exact hfault

/-- Settles O42: of the requests that change the machine, a step and a load that fails keep the record. -/
theorem onlyLoadClearsFault : Obligations.OnlyLoadClearsFault := by
  unfold Obligations.OnlyLoadClearsFault
  intro request s t r hfault h
  rcases serve_state_cases h with ⟨bytes, offset, hreq, hl | ⟨_, hl⟩⟩ | ⟨-, hs⟩ | rfl
  · exact .inr ⟨bytes, offset, hreq, hl⟩
  · rw [State.loadProgram_failed hl]
    exact .inl hfault
  · exact .inl (stepCall_keeps_fault hfault hs)
  · exact .inl hfault

/-- Settles O32: at power-on and after a failed load `loaded` is false, which the step looks at first. -/
theorem unloadedStepRefused : Obligations.UnloadedStepRefused := by
  unfold Obligations.UnloadedStepRefused
  refine ⟨fun s h => step_of_unloaded h, step_of_unloaded rfl, fun bytes offset s t e h => ?_⟩
  rw [State.loadProgram_failed h]
  exact ⟨rfl, rfl, step_of_unloaded rfl⟩

end Sys2Proof.Machine
end

section
/-! The statements on the step of a ready machine: at bytes that decode to an instruction, at an unknown opcode, past
memory. -/

namespace Sys2Proof.Machine

theorem encode_append_of_decode {bytes rest : List Byte} {i : Instr} (h : decode bytes = .ok (.instr i, rest)) :
    encode i ++ rest = bytes := by
  cases bytes with
  | nil => cases h
  | cons b tail =>
    rcases decode_cons_cases b tail with ⟨d, rest', hd, -, hbytes, -⟩ | ⟨-, hd, -⟩ <;> rw [h] at hd <;> cases hd
    exact hbytes

/-- The bytes at PC are what the Bus reads there (40_execution_cycle.md R103, R106). -/
theorem busRead_of_bytesAtPC {s : State} {b : Byte} {tail : List Byte} (h : s.bytesAtPC = b :: tail) :
    s.busRead s.pc.toNat = .ok b ∧ ∀ v rest, tail = v :: rest → s.busRead (s.pc.toNat + 1) = .ok v := by
  unfold State.bytesAtPC at h
  split at h <;> cases h
  case h_1 hv hb =>
    refine ⟨hb, fun w rest hw => ?_⟩
    cases hw
    exact hv
  case h_2 hv hb => exact ⟨hb, fun w rest hw => by cases hw⟩

/-- Where the bytes at PC decode to an instruction, the step of a ready machine is its meaning (40_execution_cycle.md
R103 to R106). -/
theorem step_of_decode {s : State} {i : Instr} {rest : List Byte} (hr : Ready s)
    (h : decode s.bytesAtPC = .ok (.instr i, rest)) :
    s.busRead s.pc.toNat = .ok i.opcode.byte ∧ step s = exec i (s.writeIR i.opcode.byte) := by
  have hbytes := encode_append_of_decode h
  obtain ⟨op, v, rfl⟩ : ∃ (op : Opcode) (v : Byte), op.instr v = i := ⟨_, _, i.opcode_instr_operand⟩
  rw [Opcode.instr_opcode]
  rw [encode_instr] at hbytes
  cases ho : op.hasOperand with
  | true =>
    rw [ho, if_pos rfl] at hbytes
    obtain ⟨hb, hv⟩ := busRead_of_bytesAtPC hbytes.symm
    exact ⟨hb, step_of_opcode hr hb op.ofByte_byte fun _ => hv v rest rfl⟩
  | false =>
    rw [ho] at hbytes
    obtain ⟨hb, -⟩ := busRead_of_bytesAtPC hbytes.symm
    exact ⟨hb, step_of_opcode hr hb op.ofByte_byte fun h => by rw [ho] at h; cases h⟩

/-- Settles O28: the instruction's encoding is what the two fetches read. -/
theorem stepRunsDecodedInstruction : Obligations.StepRunsDecodedInstruction := by
  unfold Obligations.StepRunsDecodedInstruction
  exact fun s i rest hr _ h => step_of_decode hr h

/-- Settles O30: the off-end halt writes `running` and the log alone. -/
theorem stepHaltsOffEnd : Obligations.StepHaltsOffEnd := by
  unfold Obligations.StepHaltsOffEnd
  intro s hr hpc
  obtain ⟨hloaded, hfault, -⟩ := id hr
  exact ⟨_, step_of_offEnd hr hpc, rfl, rfl, rfl, hloaded, hfault, ⟨rfl, rfl, rfl, rfl⟩, fun _ => rfl⟩

/-- What appending entries to any log leaves: the oldest are dropped as far as the capacity asks (10_state.md R35). -/
theorem foldl_pushEntry_eq (entries log : List LogEntry) :
    entries.foldl pushEntry log = (log ++ entries).drop (entries.length - (15 - log.length)) := by
  induction entries generalizing log with
  | nil => simp
  | cons e es ih =>
    rw [List.foldl_cons, ih, List.length_cons]
    by_cases hlog : log.length < Config.logCapacity
    · have hpush : pushEntry log e = log ++ [e] := by rw [pushEntry, if_pos hlog]
      have hcount : es.length - (15 - (log.length + 1)) = es.length + 1 - (15 - log.length) := by
        simp only [Config.logCapacity] at hlog
        omega
      rw [hpush, List.append_assoc, List.singleton_append, List.length_append, List.length_singleton, hcount]
    · have hpush : pushEntry log e = log.drop 1 ++ [e] := by rw [pushEntry, if_neg hlog]
      simp only [Config.logCapacity] at hlog
      have hfull : 15 - (log.drop 1 ++ [e]).length = 0 := by
        simp only [List.length_append, List.length_drop, List.length_singleton]
        omega
      have hone : 1 ≤ log.length := by omega
      rw [hpush, hfull, show 15 - log.length = 0 by omega, List.append_assoc, List.singleton_append,
        ← List.drop_append_of_le_length hone, List.drop_drop, Nat.sub_zero, Nat.sub_zero, Nat.add_comm]

/-- Settles O51: within the capacity the entries dropped are those that the two lists hold beyond 15. -/
theorem logKeepsLastEntries : Obligations.LogKeepsLastEntries := by
  unfold Obligations.LogKeepsLastEntries
  intro log entries hlog
  have hcount : entries.length - (15 - log.length) = (log ++ entries).length - 15 := by
    rw [List.length_append]
    omega
  rw [foldl_pushEntry_eq, hcount]

/-- An entry that fewer than 15 follow stays in the log, however full it was (10_state.md R35). -/
theorem mem_foldl_pushEntry {before after log : List LogEntry} (e : LogEntry) (hafter : after.length < 15) :
    e ∈ (before ++ e :: after).foldl pushEntry log := by
  have hcount : (before ++ e :: after).length - (15 - log.length) ≤ (log ++ before).length := by
    simp only [List.length_append, List.length_cons]
    omega
  rw [foldl_pushEntry_eq, ← List.append_assoc, List.drop_append_of_le_length hcount]
  exact List.mem_append_right _ List.mem_cons_self

/-- At most 14 entries follow the "unknown opcode" entry of a skip (30_encoding.md R85). -/
theorem unknownOpcode_mem_skipUnknown_log (s : State) : .unknownOpcode ∈ s.skipUnknown.log :=
  mem_foldl_pushEntry .unknownOpcode (by rw [openLines_length]; exact (Config.logTail _).isLt)

/-- Settles O29: the skip writes IR, PC and the log alone, and its entry stays in the log. -/
theorem stepSkipsUnknownOpcode : Obligations.StepSkipsUnknownOpcode := by
  unfold Obligations.StepSkipsUnknownOpcode
  intro s b hr hb hop
  have hlog := unknownOpcode_mem_skipUnknown_log (s.writeIR b)
  exact ⟨_, step_of_unknown hr hb hop, pc_add_toNat 1 (lt_256_of_busRead_ok hb) (by decide), rfl, hlog,
    List.mem_map_of_mem (f := LogEntry.text) hlog, ⟨rfl, rfl, rfl, rfl⟩, fun _ => rfl, hr⟩

end Sys2Proof.Machine
end

section
/-! The statement on the log and IR: `SameButLogAndIR` is a bisimulation of the step, so of the run. -/

namespace Sys2Proof.Machine

theorem SameButLogAndIR.eq_update {s t : State} (h : SameButLogAndIR s t) :
    t = { s with log := t.log, ir := t.ir, draws := t.draws } := by
  obtain ⟨ha, hx, hpc, hcarry, hzero, hrunning, hmem, hloaded, hfault⟩ := h
  cases t
  simp_all

theorem SameButLogAndIR.ready {s t : State} (h : SameButLogAndIR s t) (hr : Ready s) : Ready t := by
  rw [h.eq_update]
  exact hr

theorem SameButLogAndIR.busRead {s t : State} (h : SameButLogAndIR s t) (addr : Nat) :
    t.busRead addr = s.busRead addr := by
  rw [h.eq_update]
  rfl

/-- No instruction reads the log, IR or the counter of free values (10_state.md R27, R35). -/
theorem SameButLogAndIR.exec_writeIR {s t : State} (h : SameButLogAndIR s t) (i : Instr) (b : Byte)
    (hfits : s.pc.toNat + i.length ≤ 256) :
    OutcomesAgree (exec i (s.writeIR b)) (exec i (t.writeIR b)) := by
  have hpc : t.pc = s.pc := by rw [h.eq_update]
  rw [exec_eq_next_completed (s := s.writeIR b) (fun h2 => by rw [State.writeIR_pc]; omega),
    exec_eq_next_completed (s := t.writeIR b) (fun h2 => by rw [State.writeIR_pc, hpc]; omega), h.eq_update]
  cases i <;> exact ⟨rfl, rfl, rfl, rfl, rfl, rfl, rfl, rfl, rfl⟩

/-- The step looks at nothing in which the two states differ (10_state.md R27, R35). -/
theorem step_agrees {s t : State} (h : SameButLogAndIR s t) : OutcomesAgree (step s) (step t) := by
  have hready := h.ready
  have hread := h.busRead
  obtain ⟨ha, hx, hpc, hcarry, hzero, hrunning, hmem, hloaded, hfault⟩ := id h
  rcases stepCall_cases s with
    ⟨hl, -⟩ | ⟨r, hl, hf, -⟩ | ⟨hl, hf, hn, -⟩ | ⟨hr, hout, -⟩ | ⟨b, hr, -, hb, hop, -⟩ |
    ⟨b, op, hr, h255, hb, hop, ho, -⟩ | ⟨b, op, v, hr, hfits, hb, hop, hv, -⟩
  · rw [step_of_unloaded hl, step_of_unloaded (hloaded ▸ hl)]
    rfl
  · rw [step_of_raised (stepCall_of_faulted hl hf),
      step_of_raised (stepCall_of_faulted (hloaded ▸ hl) (hfault ▸ hf))]
    rfl
  · rw [step_of_returned (stepCall_of_halted hl hf hn),
      step_of_returned (stepCall_of_halted (hloaded ▸ hl) (hfault ▸ hf) (hrunning ▸ hn))]
    exact h
  · rw [step_of_offEnd hr hout, step_of_offEnd (hready hr) (hpc ▸ hout)]
    exact ⟨ha, hx, hpc, hcarry, hzero, rfl, hmem, hloaded, hfault⟩
  · rw [step_of_unknown hr hb hop, step_of_unknown (hready hr) (by rwa [hread, ← hpc]) hop]
    exact ⟨ha, hx, by simp [hpc], hcarry, hzero, hrunning, hmem, hloaded, hfault⟩
  · rw [step_of_raised (stepCall_of_operand_error hr hb hop ho (fetchOperand_at_255 h255)),
      step_of_raised (stepCall_of_operand_error (hready hr) (by rwa [hread, ← hpc]) hop ho
        (fetchOperand_at_255 (hpc ▸ h255)))]
    rfl
  · rw [step_of_opcode hr hb hop hv,
      step_of_opcode (hready hr) (by rwa [hread, ← hpc]) hop (fun ho => by rw [hread, ← hpc, hv ho])]
    exact h.exec_writeIR _ b (by rwa [Opcode.instr_length])

/-- Outcomes that agree are of one kind. -/
theorem outcomesAgree_cases {p q : Host.Outcome State Fault Refusal} (h : OutcomesAgree p q) :
    (∃ s t, p = .next s ∧ q = .next t ∧ SameButLogAndIR s t) ∨ (∃ e, p = .fault e ∧ q = .fault e) ∨
      ∃ r, p = .refused r ∧ q = .refused r := by
  cases p with
  | next s =>
    cases q with
    | next t => exact .inl ⟨s, t, rfl, rfl, h⟩
    | fault _ | refused _ => exact h.elim
  | fault e =>
    cases q with
    | fault _ => exact .inr (.inl ⟨e, rfl, congrArg _ (Eq.symm h)⟩)
    | next _ | refused _ => exact h.elim
  | refused r =>
    cases q with
    | refused _ => exact .inr (.inr ⟨r, rfl, congrArg _ (Eq.symm h)⟩)
    | next _ | fault _ => exact h.elim

/-- Settles O50, by induction on the number of steps. -/
theorem logAndIRNeverInfluence : Obligations.LogAndIRNeverInfluence := by
  unfold Obligations.LogAndIRNeverInfluence
  intro k
  induction k with
  | zero => exact fun s t h => h
  | succ k ih =>
    intro s t h
    rcases outcomesAgree_cases (step_agrees h) with ⟨s', t', hs, ht, h'⟩ | ⟨e, hs, ht⟩ | ⟨r, hs, ht⟩
    · rw [run_succ_of_next hs, run_succ_of_next ht]
      exact ih s' t' h'
    · rw [run_succ_of_fault hs, run_succ_of_fault ht]
      rfl
    · rw [run_succ_of_refused hs, run_succ_of_refused ht]
      rfl

end Sys2Proof.Machine
end

section
/-! The statements on the two-byte instructions (41_data_movement.md, 42_arithmetic.md, 43_control.md, 44_logic.md). -/

namespace Sys2Proof.Machine

/-- What an instruction but STA and HALT leaves: IR, `running`, the bookkeeping fields and memory; and its log entry
(10_state.md R27, R31, R35; 20_memory.md R55). -/
theorem completed_frame {i : Instr} (s : State) (hsta : i.opcode ≠ .sta) (hhalt : i ≠ .halt) :
    ControlSame s (completed i s) ∧ MemSame s (completed i s) ∧ LogGrew s (completed i s) :=
  ⟨controlSame_completed s hhalt, memSame_completed s hsta, logGrew_completed i s⟩

/-- An instruction that writes neither A nor X writes no flag either (10_state.md R28, R29). -/
theorem regsSame_completed {i : Instr} (s : State) (hA : writesA i = false) (hX : writesX i = false) :
    RegsSame s (completed i s) := by
  cases i with
  | sta _ | jmp _ | beq _ | halt => exact ⟨rfl, rfl, rfl, rfl⟩
  | lda _ | add _ | sub _ | and _ | or _ | xor _ | not => cases hA
  | ldx _ | inx | dex => cases hX

/-- Every two-byte instruction but the jumps passes itself, without wrap where its operand byte exists (10_state.md
R25). -/
theorem completed_pc_toNat_of_length_two {i : Instr} {s : State} (hpc : s.pc.toNat + 1 < 256) (h : i.length = 2)
    (hjmp : i.opcode ≠ .jmp) (hbeq : i.opcode ≠ .beq) : (completed i s).pc.toNat = s.pc.toNat + 2 := by
  rw [completed_pc]
  cases i with
  | lda _ | add _ | sta _ | sub _ | and _ | or _ | xor _ | ldx _ => exact pc_add_toNat 2 (by omega) (by decide)
  | jmp _ => exact absurd rfl hjmp
  | beq _ => exact absurd rfl hbeq
  | not | inx | dex | halt => cases h

/-- LDA, AND, OR and XOR: they complete where the operand byte exists, and leave the same but for the value A takes. -/
theorem exec_logic_frame {i : Instr} {s : State} (hi : i.opcode ∈ [.lda, .and, .or, .xor])
    (hpc : s.pc.toNat + 1 < 256) :
    exec i s = .next (completed i s) ∧ ((completed i s).zero = true ↔ (completed i s).a = 0) ∧
      (completed i s).pc.toNat = s.pc.toNat + 2 ∧ (completed i s).x = s.x ∧ (completed i s).carry = s.carry ∧
      ControlSame s (completed i s) ∧ MemSame s (completed i s) ∧ LogGrew s (completed i s) := by
  have hexec := exec_eq_next_completed (i := i) fun _ => hpc
  cases i with
  | lda _ | and _ | or _ | xor _ =>
    exact ⟨hexec, completed_zero_iff_of_writesA s rfl, completed_pc_toNat_of_length_two hpc rfl nofun nofun,
      completed_x_of_not_writesX s rfl, completed_carry_of_not_add_sub s nofun nofun, completed_frame s nofun nofun⟩
  | add _ | sta _ | jmp _ | sub _ | beq _ | not | ldx _ | inx | dex | halt => simp [Instr.opcode] at hi

/-- ADD and SUB: they complete where the operand byte exists, and leave the same but for the values A and carry take. -/
theorem exec_arithmetic_frame {i : Instr} {s : State} (hi : i.opcode ∈ [.add, .sub]) (hpc : s.pc.toNat + 1 < 256) :
    exec i s = .next (completed i s) ∧ ((completed i s).zero = true ↔ (completed i s).a = 0) ∧
      (completed i s).pc.toNat = s.pc.toNat + 2 ∧ (completed i s).x = s.x ∧
      ControlSame s (completed i s) ∧ MemSame s (completed i s) ∧ LogGrew s (completed i s) := by
  have hexec := exec_eq_next_completed (i := i) fun _ => hpc
  cases i with
  | add _ | sub _ =>
    exact ⟨hexec, completed_zero_iff_of_writesA s rfl, completed_pc_toNat_of_length_two hpc rfl nofun nofun,
      completed_x_of_not_writesX s rfl, completed_frame s nofun nofun⟩
  | lda _ | sta _ | jmp _ | beq _ | and _ | or _ | xor _ | not | ldx _ | inx | dex | halt =>
    simp [Instr.opcode] at hi

/-- Settles O13: LDA is of the shape of the logic instructions, with the operand itself as the value. -/
theorem ldaLoadsImmediate : Obligations.LdaLoadsImmediate := by
  unfold Obligations.LdaLoadsImmediate
  intro v s hpc
  obtain ⟨hexec, hframe⟩ := exec_logic_frame (i := .lda v) (by simp [Instr.opcode]) hpc
  exact ⟨_, hexec, rfl, hframe⟩

/-- Settles O23: each bit of the new A is the AND of two. -/
theorem andMasks : Obligations.AndMasks := by
  unfold Obligations.AndMasks
  intro v s hpc
  obtain ⟨hexec, hframe⟩ := exec_logic_frame (i := .and v) (by simp [Instr.opcode]) hpc
  exact ⟨_, hexec, fun k => BitVec.getLsbD_and, hframe⟩

/-- Settles O24: each bit of the new A is the OR of two. -/
theorem orSets : Obligations.OrSets := by
  unfold Obligations.OrSets
  intro v s hpc
  obtain ⟨hexec, hframe⟩ := exec_logic_frame (i := .or v) (by simp [Instr.opcode]) hpc
  exact ⟨_, hexec, fun k => BitVec.getLsbD_or, hframe⟩

/-- Settles O25: an exclusive OR is 0 exactly where its two sides are equal. -/
theorem xorFlips : Obligations.XorFlips := by
  unfold Obligations.XorFlips
  intro v s hpc
  obtain ⟨hexec, hzero, hframe⟩ := exec_logic_frame (i := .xor v) (by simp [Instr.opcode]) hpc
  have hequal : s.a ^^^ v = 0 ↔ v = s.a := BitVec.xor_eq_zero_iff.trans eq_comm
  exact ⟨_, hexec, fun k => BitVec.getLsbD_xor, hzero, hzero.trans hequal, hframe⟩

/-- Settles O16: carry and A are the two parts of the exact sum. -/
theorem addWrapsAndCarries : Obligations.AddWrapsAndCarries := by
  unfold Obligations.AddWrapsAndCarries
  intro v s hpc
  obtain ⟨hexec, hframe⟩ := exec_arithmetic_frame (i := .add v) (by simp [Instr.opcode]) hpc
  exact ⟨_, hexec, wrapAdd_toNat s.a v, addCarry_eq_true_iff s.a v, hframe⟩

/-- Settles O17: carry and A are the two parts of the exact difference. -/
theorem subWrapsAndBorrows : Obligations.SubWrapsAndBorrows := by
  unfold Obligations.SubWrapsAndBorrows
  intro v s hpc
  obtain ⟨hexec, hframe⟩ := exec_arithmetic_frame (i := .sub v) (by simp [Instr.opcode]) hpc
  exact ⟨_, hexec, wrapSub_toNat s.a v, subBorrow_eq_true_iff s.a v, hframe⟩

/-- Settles O15: LDX writes X and zero, and passes itself. -/
theorem ldxLoadsImmediate : Obligations.LdxLoadsImmediate := by
  unfold Obligations.LdxLoadsImmediate
  intro v s hpc
  exact ⟨_, exec_eq_next_completed fun _ => hpc, rfl, completed_zero_iff_of_writesX s rfl,
    completed_pc_toNat_of_length_two hpc rfl nofun nofun, completed_a_of_not_writesA s rfl,
    completed_carry_of_not_add_sub s nofun nofun, completed_frame s nofun nofun⟩

/-- Settles O20: JMP writes PC alone. -/
theorem jmpSetsPC : Obligations.JmpSetsPC := by
  unfold Obligations.JmpSetsPC
  intro d s hpc
  exact ⟨_, exec_eq_next_completed fun _ => hpc, absoluteTarget_toNat d, regsSame_completed s rfl rfl,
    completed_frame s nofun nofun⟩

/-- Settles O21: the two branches differ in PC alone. -/
theorem beqBranchesOnZero : Obligations.BeqBranchesOnZero := by
  unfold Obligations.BeqBranchesOnZero
  intro d s hpc
  refine ⟨_, exec_eq_next_completed fun _ => hpc, ?_, regsSame_completed s rfl rfl, completed_frame s nofun nofun⟩
  rw [completed_pc, nextPC]
  split
  · exact absoluteTarget_toNat d
  · exact pc_add_toNat 2 (by omega) (by decide)

@[simp] theorem completed_sta_mem (d : Byte) (s : State) :
    (completed (.sta d) s).mem = ⟨putCell d.toNat s.a s.mem.cells⟩ := rfl

/-- After an STA its address reads as A (41_data_movement.md R121). -/
theorem busRead_completed_sta_same (d : Byte) {s : State} (hwf : s.mem.wf) :
    (completed (.sta d) s).busRead d.toNat = .ok s.a := by
  rw [State.busRead_eq, if_pos d.isLt, completed_sta_mem, cellAt_putCell_same _ _ _ hwf]

theorem busRead_completed_sta_other {d : Byte} (s : State) {addr : Nat} (h : addr ≠ d.toNat) :
    (completed (.sta d) s).busRead addr = s.busRead addr := by
  rw [State.busRead_eq, State.busRead_eq, completed_sta_mem, cellAt_putCell_other _ _ _ _ h]

/-- Settles O14: the one cell written is the one the operand addresses. -/
theorem staStoresAccumulator : Obligations.StaStoresAccumulator := by
  unfold Obligations.StaStoresAccumulator
  intro d s hwf hpc
  exact ⟨_, exec_eq_next_completed fun _ => hpc, busRead_completed_sta_same d hwf,
    fun addr h => busRead_completed_sta_other s h, completed_pc_toNat_of_length_two hpc rfl nofun nofun,
    regsSame_completed s rfl rfl, controlSame_completed s nofun, logGrew_completed _ s⟩

end Sys2Proof.Machine
end

section
/-! The statement on who reads and who writes A and X (10_state.md R21 to R23): runs of one instruction from two states
that differ in one register are compared. -/

namespace Sys2Proof.Machine

/-- An instruction that completes does so whatever A and X are: only PC decides (40_execution_cycle.md R106). -/
theorem exec_next_of_same_pc {i : Instr} {s t s' : State} (h : exec i s = .next t) (hpc : s'.pc = s.pc) :
    exec i s' = .next (completed i s') :=
  exec_eq_next_completed fun h2 => hpc ▸ ((exec_next_iff i s t).mp h).1 h2

/-- The instructions that do not read A pass everything else on as if it were another (10_state.md R21). -/
theorem completed_a_update {i : Instr} (s : State) (w : Byte)
    (h : i.opcode ∉ [.add, .sub, .and, .or, .xor, .not, .sta]) :
    completed i { s with a := w } =
      { completed i s with a := if writesA i = true then (completed i s).a else w } := by
  cases i with
  | lda _ | jmp _ | beq _ | ldx _ | inx | dex | halt => rfl
  | add _ | sta _ | sub _ | and _ | or _ | xor _ | not => simp [Instr.opcode] at h

/-- The instructions that do not read X pass everything else on as if it were another (10_state.md R22). -/
theorem completed_x_update {i : Instr} (s : State) (w : Byte) (h : i.opcode ∉ [.inx, .dex]) :
    completed i { s with x := w } =
      { completed i s with x := if writesX i = true then (completed i s).x else w } := by
  cases i with
  | lda _ | add _ | sta _ | jmp _ | sub _ | beq _ | and _ | or _ | xor _ | not | ldx _ | halt => rfl
  | inx | dex => simp [Instr.opcode] at h

/-- INX and DEX pass nothing of X to A, carry, PC or memory (10_state.md R23). -/
theorem completed_inx_dex_x_update {i : Instr} (s : State) (w : Byte) (h : i.opcode ∈ [.inx, .dex]) :
    (completed i { s with x := w }).a = (completed i s).a ∧
      (completed i { s with x := w }).carry = (completed i s).carry ∧
      (completed i { s with x := w }).pc = (completed i s).pc ∧
      (completed i { s with x := w }).mem = (completed i s).mem := by
  cases i with
  | inx | dex => exact ⟨rfl, rfl, rfl, rfl⟩
  | lda _ | add _ | sta _ | jmp _ | sub _ | beq _ | and _ | or _ | xor _ | not | ldx _ | halt =>
    simp [Instr.opcode] at h

/-- Settles O48, from what each instruction leaves of a state with another A or X. -/
theorem registersReadAndWritten : Obligations.RegistersReadAndWritten := by
  unfold Obligations.RegistersReadAndWritten
  refine ⟨fun i s t h => ?_, fun i s t w h hi => ?_, fun i s t w h hi => ?_, fun i s t w h hi => ?_⟩
  · rw [← completed_of_exec_next h]
    exact ⟨completed_a_of_not_writesA s, completed_x_of_not_writesX s⟩
  · cases completed_of_exec_next h
    exact (exec_next_of_same_pc (s' := { s with a := w }) h rfl).trans (congrArg _ (completed_a_update s w hi))
  · cases completed_of_exec_next h
    exact (exec_next_of_same_pc (s' := { s with x := w }) h rfl).trans (congrArg _ (completed_x_update s w hi))
  · rw [← completed_of_exec_next h]
    exact ⟨_, exec_next_of_same_pc h rfl, completed_inx_dex_x_update s w hi⟩

end Sys2Proof.Machine
end

section
/-! The statements on the Memory and the Bus (20_memory.md R50 to R56). -/

namespace Sys2Proof.Machine

theorem Memory.read_of_lt (m : Memory) {addr : Nat} (h : addr < 256) : m.read addr = .ok (cellAt addr m.cells) :=
  if_pos h

theorem Memory.read_of_not_lt (m : Memory) {addr : Nat} (h : ¬ addr < 256) :
    m.read addr = .error (.outOfRange ⟨addr⟩) :=
  if_neg h

theorem Memory.write_of_lt (m : Memory) {addr : Nat} (value : Nat) (h : addr < 256) :
    m.write addr value = .ok ⟨putCell addr (BitVec.ofNat 8 value) m.cells⟩ :=
  if_pos h

theorem Memory.write_of_not_lt (m : Memory) {addr : Nat} (value : Nat) (h : ¬ addr < 256) :
    m.write addr value = .error (.outOfRange ⟨addr⟩) :=
  if_neg h

/-- A write leaves every other address as it was, those out of range included (20_memory.md R52). -/
theorem Memory.read_putCell_other (m : Memory) {addr k : Nat} (v : Byte) (h : k ≠ addr) :
    (⟨putCell addr v m.cells⟩ : Memory).read k = m.read k := by
  rw [Memory.read, Memory.read, cellAt_putCell_other _ _ _ _ h]

/-- Settles O9: the cell rules of a canonical list, below 256 and not. -/
theorem memoryWriteThenRead : Obligations.MemoryWriteThenRead := by
  unfold Obligations.MemoryWriteThenRead
  intro m a value hwf
  refine ⟨fun ha => ?_, fun ha => ⟨m.write_of_not_lt value ha, m.read_of_not_lt ha⟩⟩
  have hwrite := m.write_of_lt value ha
  refine ⟨_, _, hwrite, Memory.write_wf hwf hwrite, Memory.read_of_lt _ ha, ?_, fun k hk => m.read_putCell_other _ hk⟩
  rw [cellAt_putCell_same _ _ _ hwf, BitVec.toNat_ofNat]

/-- In canonical form the cells listed are the addresses that do not read as unlisted, each with what it reads as. -/
theorem CellsCanonical.mem_iff {cells : List Host.Cell} (h : CellsCanonical cells) (a : Nat) (v : Byte) :
    (a, v) ∈ cells ↔ v ≠ unlistedCell ∧ cellAt a cells = v := by
  induction cells with
  | nil =>
    simp only [List.not_mem_nil, cellAt, false_iff, not_and]
    exact fun hv heq => hv heq.symm
  | cons c rest ih =>
    obtain ⟨k, w⟩ := c
    have hw : w ≠ unlistedCell := (h.2 (k, w) List.mem_cons_self).2
    by_cases hka : k = a
    · subst hka
      have hfresh : (k, v) ∉ rest := fun hm => Nat.lt_irrefl k (h.head_lt (k, v) hm)
      simp only [List.mem_cons, Prod.mk.injEq, true_and, hfresh, or_false, cellAt, if_true]
      exact ⟨fun hv => ⟨hv ▸ hw, hv.symm⟩, fun hv => hv.2.symm⟩
    · simp only [List.mem_cons, Prod.mk.injEq, Ne.symm hka, false_and, false_or, cellAt, hka, if_false]
      exact ih h.tail

theorem CellsCanonical.lt_256 {cells : List Host.Cell} (h : CellsCanonical cells) {a : Nat} {v : Byte}
    (hm : (a, v) ∈ cells) : a < 256 :=
  (h.2 (a, v) hm).1

/-- Canonical memories with equal cells below 256 list the same cells, so are the same data. -/
theorem Memory.eq_of_cellAt_eq {m m' : Memory} (hm : m.wf) (hm' : m'.wf)
    (h : ∀ a, a < 256 → cellAt a m.cells = cellAt a m'.cells) : m = m' := by
  have hanti : Std.Antisymm (fun p q : Host.Cell => p.1 < q.1) := ⟨fun p q hpq hqp => by omega⟩
  have hirrefl : Std.Irrefl (fun p q : Host.Cell => p.1 < q.1) := ⟨fun p hp => Nat.lt_irrefl _ hp⟩
  have hcells : m.cells = m'.cells := by
    refine hm.1.eq_of_mem_iff hm'.1 fun c => ?_
    obtain ⟨a, v⟩ := c
    constructor
    · intro hc
      rw [hm'.mem_iff, ← h a (hm.lt_256 hc)]
      exact (hm.mem_iff a v).mp hc
    · intro hc
      rw [hm.mem_iff, h a (hm'.lt_256 hc)]
      exact (hm'.mem_iff a v).mp hc
  cases m
  exact congrArg Memory.mk hcells

/-- Settles O10: below 256 a read answers the cell. -/
theorem equalReadsEqualMemory : Obligations.EqualReadsEqualMemory := by
  unfold Obligations.EqualReadsEqualMemory
  intro m m' hm hm' hread
  refine Memory.eq_of_cellAt_eq hm hm' fun a ha => ?_
  have hcell := hread a
  rw [m.read_of_lt ha, m'.read_of_lt ha] at hcell
  exact Except.ok.inj hcell

theorem Bus.attach_write (b : Bus) (m : Memory) (a value : Nat) :
    (∀ m', m.write a value = .ok m' → (b.attach m).write a value = .ok (b.attach m')) ∧
      (∀ e, m.write a value = .error e → (b.attach m).write a value = .error e) := by
  constructor <;> intro r h <;> simp [Bus.write, Bus.attach, h]

/-- The CPU writes its own memory (20_memory.md R56). -/
theorem State.busWrite_memory (s : State) (a value : Nat) :
    (∀ m, s.mem.write a value = .ok m → s.busWrite a value = .ok { s with mem := m }) ∧
      (∀ e, s.mem.write a value = .error e → s.busWrite a value = .error e) := by
  obtain ⟨hok, herror⟩ := Bus.unattached.attach_write s.mem a value
  refine ⟨fun m h => ?_, fun e h => ?_⟩
  · rw [State.busWrite, State.bus, hok m h]
    rfl
  · rw [State.busWrite, State.bus, herror e h]

/-- Settles O11: an attached Bus forwards, and the CPU's is attached in every state. -/
theorem busForwardsToMemory : Obligations.BusForwardsToMemory := by
  unfold Obligations.BusForwardsToMemory
  exact ⟨fun a value => ⟨rfl, rfl⟩, fun b m a => rfl, Bus.attach_write, fun b m m' => rfl, fun s a => rfl,
    State.busWrite_memory⟩

end Sys2Proof.Machine
end

section
/-! The statements on the load: what it leaves, when it fails, where execution starts (70_reset_and_hazards.md). -/

namespace Sys2Proof.Machine

/-- A load that succeeds leaves memory canonical, with the bytes loaded from the offset on and 0 elsewhere
(70_reset_and_hazards.md R230). -/
theorem State.loadProgram_ok_mem {bytes : List Byte} {offset : Byte} {s t : State} (hwf : s.mem.wf)
    (h : s.loadProgram bytes offset = .ok t) :
    t.mem.wf ∧ ∀ k, k < 256 → t.busRead k = .ok
      (if offset.toNat ≤ k ∧ k < offset.toNat + bytes.length then bytes.getD (k - offset.toNat) 0 else 0) := by
  rcases State.loadProgram_cases bytes offset s with ⟨_, hs⟩ | ⟨_, m, hs, hm⟩ <;> rw [hs] at h <;> cases h
  obtain ⟨hmwf, hcells⟩ := hm hwf
  exact ⟨hmwf, fun k hk => by rw [State.busRead_eq, if_pos hk, hcells k hk]⟩

theorem State.loadProgram_ok_pc {bytes : List Byte} {offset : Byte} {s t : State}
    (h : s.loadProgram bytes offset = .ok t) : t.pc.toNat = offset.toNat := by
  obtain ⟨m, rfl⟩ := State.loadProgram_ok h
  exact absoluteTarget_toNat offset

/-- Settles O39: the fields are those of the reset machine, the cells those of the load. -/
theorem loadPostcondition : Obligations.LoadPostcondition := by
  unfold Obligations.LoadPostcondition
  intro bytes offset s t hwf h
  obtain ⟨htwf, hread⟩ := State.loadProgram_ok_mem hwf h
  have hpc := State.loadProgram_ok_pc h
  obtain ⟨m, rfl⟩ := State.loadProgram_ok h
  refine ⟨rfl, rfl, rfl, rfl, rfl, rfl, hpc, rfl, rfl, rfl, htwf, fun addr haddr => ?_⟩
  rw [hread addr haddr]
  by_cases hin : offset.toNat ≤ addr ∧ addr - offset.toNat < bytes.length
  · rw [dif_pos hin, if_pos (by omega), List.getD_eq_getElem _ _ hin.2]
  · rw [dif_neg hin, if_neg (by omega)]

theorem State.loadProgram_of_fits {bytes : List Byte} {offset : Byte} (s : State)
    (h : offset.toNat + bytes.length ≤ 256) : ∃ t, s.loadProgram bytes offset = .ok t := by
  rcases State.loadProgram_cases bytes offset s with ⟨hlarge, _⟩ | ⟨_, m, hs, _⟩
  · exact absurd hlarge (Nat.not_lt.mpr h)
  · exact ⟨_, hs⟩

/-- Settles O40: every offset is below 256, so the empty sequence fits. -/
theorem loadTooLargeFails : Obligations.LoadTooLargeFails := by
  unfold Obligations.LoadTooLargeFails
  refine ⟨fun bytes offset s => ⟨fun hlarge => ?_, s.loadProgram_of_fits⟩, fun offset s => ?_⟩
  · rcases State.loadProgram_cases bytes offset s with ⟨_, hs⟩ | ⟨hfits, _⟩
    · exact ⟨_, hs⟩
    · exact absurd hlarge (Nat.not_lt.mpr hfits)
  · exact s.loadProgram_of_fits (Nat.le_of_lt offset.isLt)

/-- Settles O41: a canonical memory that reads as 0 everywhere lists no cell. -/
theorem resetIsEmptyLoad : Obligations.ResetIsEmptyLoad := by
  unfold Obligations.ResetIsEmptyLoad
  intro s hwf
  obtain ⟨t, h⟩ := s.loadProgram_of_fits (bytes := []) (offset := 0) (by decide)
  obtain ⟨htwf, hread⟩ := State.loadProgram_ok_mem hwf h
  obtain ⟨m, rfl⟩ := State.loadProgram_ok h
  have hempty : m = ⟨[]⟩ := by
    refine Memory.eq_of_cellAt_eq htwf (by decide) fun a ha => ?_
    have hcell := hread a ha
    rw [State.busRead_eq, if_pos ha] at hcell
    simpa [cellAt, unlistedCell] using hcell
  rw [h, hempty]
  rfl

theorem completed_ir (i : Instr) (s : State) : (completed i s).ir = s.ir := by
  cases i <;> rfl

/-- The opcode that a ready machine fetches is in IR after the step, whether it answers or raises an error
(10_state.md R27, 40_execution_cycle.md R111). -/
theorem stepCall_ir {s : State} {b : Byte} (hr : Ready s) (hb : s.busRead s.pc.toNat = .ok b) :
    ∃ u, (stepCall s = .returned u ∨ ∃ e, stepCall s = .raised e u) ∧ u.ir = b := by
  obtain ⟨hloaded, hfault, hrunning⟩ := id hr
  have hpc := lt_256_of_busRead_ok hb
  rcases stepCall_cases s with
    ⟨hl, -⟩ | ⟨r, -, hf, -⟩ | ⟨-, -, hn, -⟩ | ⟨-, hout, -⟩ | ⟨c, -, -, hc, -, hs⟩ | ⟨c, op, -, -, hc, -, -, hs⟩ |
    ⟨c, op, v, -, hfits, hc, -, -, hs⟩
  · rw [hloaded] at hl
    cases hl
  · rw [hfault] at hf
    cases hf
  · rw [hrunning] at hn
    cases hn
  · omega
  · cases hb.symm.trans hc
    exact ⟨_, .inl hs, rfl⟩
  · cases hb.symm.trans hc
    exact ⟨_, .inr ⟨_, hs⟩, rfl⟩
  · cases hb.symm.trans hc
    rw [runHandler_of_fits (by rwa [Opcode.instr_length])] at hs
    exact ⟨_, .inl hs, completed_ir _ _⟩

/-- Settles O43: the machine after a load is ready, and the byte at its PC is the first one loaded. -/
theorem entryPointIsOffset : Obligations.EntryPointIsOffset := by
  unfold Obligations.EntryPointIsOffset
  intro bytes offset s t hwf h
  have hready := ready_of_loadProgram_ok h
  have hpc := State.loadProgram_ok_pc h
  obtain ⟨-, hread⟩ := State.loadProgram_ok_mem hwf h
  have hfirst : t.busRead t.pc.toNat = .ok (bytes.headD 0) := by
    rw [hpc, hread _ offset.isLt]
    cases bytes <;> simp
  exact ⟨hpc, stepCall_ir hready hfirst, fun i rest hd => (step_of_decode hready hd).2⟩

/-- Settles O49: the state an STA leaves is ready, and the next fetch reads the memory it wrote. -/
theorem storedByteIsFetched : Obligations.StoredByteIsFetched := by
  unfold Obligations.StoredByteIsFetched
  intro s d hwf hr hb hd
  have hpc : s.pc.toNat + 1 < 256 := lt_256_of_busRead_ok hd
  have hstep : step s = .next (completed (.sta d) (s.writeIR 0x03)) :=
    (step_of_operand hr hb (Opcode.ofByte_byte .sta) rfl hd).trans (exec_eq_next_completed fun _ => hpc)
  have hstored : (completed (.sta d) (s.writeIR 0x03)).busRead d.toNat = .ok s.a := busRead_completed_sta_same d hwf
  refine ⟨_, hstep, completed_pc_toNat_of_length_two (s := s.writeIR 0x03) hpc rfl nofun nofun, hstored,
    fun hnext => stepCall_ir ?_ (hnext ▸ hstored)⟩
  exact ready_of_controlSame (s := s.writeIR 0x03) hr (controlSame_completed _ nofun)

end Sys2Proof.Machine
end

section
/-! The statement on a machine that finds no known opcode (30_encoding.md R85, 40_execution_cycle.md R102). -/

namespace Sys2Proof.Machine

/-- A run goes on from what its first steps answer. -/
theorem run_add_of_next {s t : State} {j : Nat} (h : Host.Core.run Sys2Proof.core j s = .next t) (k : Nat) :
    Host.Core.run Sys2Proof.core (j + k) s = Host.Core.run Sys2Proof.core k t := by
  induction j generalizing s with
  | zero =>
    cases h
    rw [Nat.zero_add]
  | succ j ih =>
    rw [Nat.add_right_comm]
    cases hs : step s with
    | next u =>
      rw [run_succ_of_next hs] at h ⊢
      exact ih h
    | fault e =>
      rw [run_succ_of_fault hs] at h
      cases h
    | refused r =>
      rw [run_succ_of_refused hs] at h
      cases h

/-- No byte from PC to the end of memory is an opcode with a handler. -/
def NoOpcodeAhead (s : State) : Prop :=
  ∀ addr, s.pc.toNat ≤ addr → addr < 256 → ∃ b, s.busRead addr = .ok b ∧ Opcode.ofByte b = none

/-- Such a machine skips one byte a step, as long as there is one (30_encoding.md R85). -/
theorem run_of_noOpcodeAhead {s : State} {k : Nat} (hr : Ready s) (hnone : NoOpcodeAhead s)
    (hk : s.pc.toNat + k ≤ 256) :
    ∃ t, Host.Core.run Sys2Proof.core k s = .next t ∧ t.pc.toNat = s.pc.toNat + k ∧ Ready t ∧ RegsSame s t ∧
      MemSame s t := by
  induction k generalizing s with
  | zero => exact ⟨s, rfl, rfl, hr, ⟨rfl, rfl, rfl, rfl⟩, fun _ => rfl⟩
  | succ k ih =>
    obtain ⟨b, hb, hop⟩ := hnone s.pc.toNat (Nat.le_refl _) (by omega)
    have hpc : (s.writeIR b).skipUnknown.pc.toNat = s.pc.toNat + 1 :=
      pc_add_toNat (pc := s.pc) 1 (by omega) (by decide)
    obtain ⟨t, hrun, htpc, htr, hregs, hmem⟩ :=
      ih (s := (s.writeIR b).skipUnknown) hr (fun addr hle => hnone addr (by omega)) (by omega)
    exact ⟨t, (run_succ_of_next (step_of_unknown hr hb hop) k).trans hrun, by omega, htr, hregs, hmem⟩

/-- The off-end halt ends the run (40_execution_cycle.md R112). -/
theorem runEnded_haltOffEnd {s : State} (hr : Ready s) : s.haltOffEnd.runEnded = true := by
  obtain ⟨hloaded, hfault, -⟩ := hr
  simp [State.runEnded, hfault, hloaded]

/-- Settles O53: after the last skip PC is 256, and the one step more is the off-end halt. -/
theorem unknownBytesRunOffTheEnd : Obligations.UnknownBytesRunOffTheEnd := by
  unfold Obligations.UnknownBytesRunOffTheEnd
  intro s hr hpc hnone
  constructor
  · obtain ⟨t, hrun, htpc, htr, hregs, hmem⟩ := run_of_noOpcodeAhead (k := 256 - s.pc.toNat) hr hnone (by omega)
    have hend : t.pc.toNat = 256 := by omega
    refine ⟨t.haltOffEnd, ?_, runEnded_haltOffEnd htr, hend, hregs, hmem⟩
    rw [show 257 - s.pc.toNat = 256 - s.pc.toNat + 1 by omega, run_add_of_next hrun,
      run_succ_of_next (step_of_offEnd htr hend.ge)]
    rfl
  · intro k hk
    obtain ⟨t, hrun, -, ⟨-, -, hrunning⟩, -, -⟩ := run_of_noOpcodeAhead (k := k) hr hnone (by omega)
    exact ⟨t, hrun, hrunning⟩

end Sys2Proof.Machine
end

section
/-! Pass 1 of the assembler as two updates of its scratch state, binding a label and queueing an instruction, and the
statements on labels (45_assembler.md R164 to R171). -/

namespace Sys2Proof.Machine

/-- Bind a name to the address counter (45_assembler.md R168). -/
def PassOne.bindLabel (name : Token) (p : PassOne) : PassOne :=
  { p with labels := p.labels ++ [(name, p.addr)] }

/-- Queue an instruction at the address counter, which passes it (45_assembler.md R170, R171). -/
def PassOne.enqueue (op : Opcode) (args : List Token) (line : Nat) (p : PassOne) : PassOne :=
  { p with queue := p.queue ++ [⟨p.addr, op, args, line⟩], addr := p.addr + op.length }

/-- What is left of a line after its label queues an instruction, or there is nothing left. -/
theorem queueInstruction_ok_cases {tokens : List Token} {line : Nat} {p q : PassOne}
    (h : queueInstruction tokens line p = .ok q) : q = p ∨ ∃ op args, q = p.enqueue op args line := by
  cases tokens with
  | nil =>
    cases h
    exact .inl rfl
  | cons m args =>
    cases hop : opcodeOfName m with
    | none => simp [queueInstruction, hop] at h
    | some op =>
      simp only [queueInstruction, hop, Except.ok.injEq] at h
      exact .inr ⟨op, args, h.symm⟩

/-- What pass 1 can do on a line that it accepts: bind its label, if its first token is one, to a name not bound before,
and then queue what is left (45_assembler.md R164, R165, R168). -/
theorem passOneLine_ok_cases {tokens : List Token} {line : Nat} {p q : PassOne}
    (h : passOneLine tokens line p = .ok q) :
    ((∀ t rest, tokens = t :: rest → labelName t = none) ∧ queueInstruction tokens line p = .ok q) ∨
    ∃ t rest name, tokens = t :: rest ∧ labelName t = some name ∧ p.labels.lookup name = none ∧
      queueInstruction rest line (p.bindLabel name) = .ok q := by
  cases tokens with
  | nil => exact .inl ⟨fun t rest ht => (by cases ht), h⟩
  | cons t rest =>
    cases hname : labelName t with
    | none =>
      simp only [passOneLine, hname] at h
      exact .inl ⟨fun u us hu => by cases hu; exact hname, h⟩
    | some name =>
      cases hlookup : p.labels.lookup name with
      | some addr => simp [passOneLine, hname, hlookup] at h
      | none =>
        simp only [passOneLine, hname, hlookup, Option.isSome_none, Bool.false_eq_true, if_false] at h
        exact .inr ⟨t, rest, name, rfl, hname, hlookup, h⟩

theorem passOne_cons (line : Nat) (l : List Char) (ls : List (List Char)) (p : PassOne) :
    passOne line (l :: ls) p = (passOneLine (tokenize l) line p).bind (passOne (line + 1) ls) := by
  rw [passOne]
  cases passOneLine (tokenize l) line p <;> rfl

/-- Pass 1 runs over the lines in order (45_assembler.md R167). -/
theorem passOne_append (line : Nat) (front back : List (List Char)) (p : PassOne) :
    passOne line (front ++ back) p = (passOne line front p).bind (passOne (line + front.length) back) := by
  induction front generalizing line p with
  | nil => rfl
  | cons l ls ih =>
    rw [List.cons_append, passOne_cons, passOne_cons]
    cases passOneLine (tokenize l) line p with
    | error e => rfl
    | ok q =>
      have hline : line + 1 + ls.length = line + (l :: ls).length := by
        rw [List.length_cons]
        omega
      exact (ih (line + 1) q).trans (by rw [hline]; rfl)

theorem exists_ok_of_bind_eq_ok {ε α β : Type} {x : Except ε α} {f : α → Except ε β} {b : β} (h : x.bind f = .ok b) :
    ∃ a, x = .ok a ∧ f a = .ok b := by
  cases x with
  | error e => cases h
  | ok a => exact ⟨a, rfl, h⟩

section Kept
variable {P : PassOne → Prop}
  (hbind : ∀ p name, P p → p.labels.lookup name = none → P (p.bindLabel name))
  (henqueue : ∀ p op args line, P p → P (p.enqueue op args line))

include henqueue in
theorem queueInstruction_keeps {tokens : List Token} {line : Nat} {p q : PassOne} (hp : P p)
    (h : queueInstruction tokens line p = .ok q) : P q := by
  rcases queueInstruction_ok_cases h with rfl | ⟨op, args, rfl⟩
  · exact hp
  · exact henqueue p op args line hp

include hbind henqueue

theorem passOneLine_keeps {tokens : List Token} {line : Nat} {p q : PassOne} (hp : P p)
    (h : passOneLine tokens line p = .ok q) : P q := by
  rcases passOneLine_ok_cases h with ⟨-, hq⟩ | ⟨_, _, name, _, _, hlookup, hq⟩
  · exact queueInstruction_keeps henqueue hp hq
  · exact queueInstruction_keeps henqueue (hbind p name hp hlookup) hq

/-- What both updates keep holds after pass 1 if it held before. -/
theorem passOne_keeps {line : Nat} {lines : List (List Char)} {p q : PassOne} (hp : P p)
    (h : passOne line lines p = .ok q) : P q := by
  induction lines generalizing line p with
  | nil =>
    cases h
    exact hp
  | cons l ls ih =>
    rw [passOne_cons] at h
    obtain ⟨r, hr, hrest⟩ := exists_ok_of_bind_eq_ok h
    exact ih (passOneLine_keeps hbind henqueue hp hr) hrest

end Kept

/-- The total length of queued instructions. -/
def queueLength (queue : List QueueEntry) : Nat :=
  (queue.map (fun e => e.op.length)).sum

@[simp] theorem queueLength_nil : queueLength [] = 0 := rfl

@[simp] theorem queueLength_cons (e : QueueEntry) (es : List QueueEntry) :
    queueLength (e :: es) = e.op.length + queueLength es := rfl

@[simp] theorem queueLength_append (front back : List QueueEntry) :
    queueLength (front ++ back) = queueLength front + queueLength back := by
  simp [queueLength]

/-- The invariant of pass 1: the counter is the total length of the queue, an entry's address that of the queue before
it, and a label stands for the counter or the address of an entry (45_assembler.md R168 to R171). -/
structure PassOne.Laid (p : PassOne) : Prop where
  counter : p.addr = queueLength p.queue
  entry : ∀ front back e, p.queue = front ++ e :: back → e.addr = queueLength front
  label : ∀ name addr, (name, addr) ∈ p.labels → addr = p.addr ∨ ∃ e ∈ p.queue, e.addr = addr
  nodup : (p.labels.map Prod.fst).Nodup

theorem PassOne.Laid.start : PassOne.start.Laid where
  counter := rfl
  entry front back e h := by simp [PassOne.start] at h
  label name addr h := by simp [PassOne.start] at h
  nodup := List.nodup_nil

theorem PassOne.Laid.bindLabel {p : PassOne} (hp : p.Laid) {name : Token} (hnew : p.labels.lookup name = none) :
    (p.bindLabel name).Laid where
  counter := hp.counter
  entry := hp.entry
  label other addr h := by
    rcases List.mem_append.mp h with h | h
    · exact hp.label other addr h
    · cases List.mem_singleton.mp h
      exact .inl rfl
  nodup := by
    have hfresh : name ∉ p.labels.map Prod.fst := fun hm => by
      obtain ⟨entry, hentry, heq⟩ := List.mem_map.mp hm
      simpa [heq] using List.lookup_eq_none_iff.mp hnew entry hentry
    simp only [PassOne.bindLabel, List.map_append, List.map_cons, List.map_nil]
    exact List.nodup_append.mpr ⟨hp.nodup, List.nodup_singleton _, fun a ha b hb hab => hfresh (by simp_all)⟩

theorem PassOne.Laid.enqueue {p : PassOne} (hp : p.Laid) (op : Opcode) (args : List Token) (line : Nat) :
    (p.enqueue op args line).Laid where
  counter := by simp [PassOne.enqueue, hp.counter]
  entry front back e h := by
    rcases List.eq_nil_or_concat back with rfl | ⟨mid, last, rfl⟩
    · obtain ⟨hfront, he⟩ := List.append_inj' h rfl
      cases he
      rw [← hfront]
      exact hp.counter
    · rw [List.concat_eq_append, ← List.cons_append, ← List.append_assoc] at h
      exact hp.entry front mid e (List.append_inj' h rfl).1
  label name addr h := by
    rcases hp.label name addr h with rfl | ⟨e, he, haddr⟩
    · exact .inr ⟨_, List.mem_append_right _ List.mem_cons_self, rfl⟩
    · exact .inr ⟨e, List.mem_append_left _ he, haddr⟩
  nodup := hp.nodup

theorem passOne_laid {lines : List (List Char)} {p : PassOne} (h : passOne 1 lines PassOne.start = .ok p) : p.Laid :=
  passOne_keeps (fun _ _ hp hnew => hp.bindLabel hnew) (fun _ op args line hp => hp.enqueue op args line)
    PassOne.Laid.start h

/-- No queued instruction reaches past the counter. -/
theorem PassOne.Laid.entry_le {p : PassOne} (hp : p.Laid) {e : QueueEntry} (he : e ∈ p.queue) :
    e.addr + e.op.length ≤ p.addr := by
  obtain ⟨front, back, hqueue⟩ := List.append_of_mem he
  rw [hp.entry front back e hqueue, hp.counter, hqueue, queueLength_append, queueLength_cons]
  omega

/-- A name keeps the address it was bound to first. -/
theorem lookup_bindLabel {p : PassOne} {name other : Token} {addr : Nat} (h : p.labels.lookup name = some addr) :
    (p.bindLabel other).labels.lookup name = some addr := by
  rw [PassOne.bindLabel, List.lookup_append, h, Option.some_or]

theorem lookup_passOne {line : Nat} {lines : List (List Char)} {p q : PassOne} {name : Token} {addr : Nat}
    (hp : p.labels.lookup name = some addr) (h : passOne line lines p = .ok q) : q.labels.lookup name = some addr :=
  passOne_keeps (P := fun r => r.labels.lookup name = some addr) (fun _ _ hr _ => lookup_bindLabel hr)
    (fun _ _ _ _ hr => hr) hp h

/-- A line's label is bound to the counter (45_assembler.md R168). -/
theorem lookup_passOneLine {line : Nat} {t name : Token} {rest : List Token} {p q : PassOne}
    (hname : labelName t = some name) (h : passOneLine (t :: rest) line p = .ok q) :
    q.labels.lookup name = some p.addr := by
  rcases passOneLine_ok_cases h with ⟨hno, -⟩ | ⟨u, us, other, hu, hother, hnew, hq⟩
  · rw [hno t rest rfl] at hname
    cases hname
  · cases hu
    obtain rfl : name = other := Option.some.inj (hname.symm.trans hother)
    refine queueInstruction_keeps (P := fun r => r.labels.lookup name = some p.addr) (fun _ _ _ _ hr => hr) ?_ hq
    simp [PassOne.bindLabel, List.lookup_append, hnew]

/-- A line binds its label and nothing else. -/
theorem mem_labels_passOneLine {tokens : List Token} {line : Nat} {p q : PassOne} {name : Token} {addr : Nat}
    (h : passOneLine tokens line p = .ok q) (hm : (name, addr) ∈ q.labels) :
    (name, addr) ∈ p.labels ∨ ∃ t rest, tokens = t :: rest ∧ labelName t = some name ∧ addr = p.addr := by
  have queued {r : PassOne} {ts : List Token} (hq : queueInstruction ts line r = .ok q) : (name, addr) ∈ r.labels := by
    rcases queueInstruction_ok_cases hq with rfl | ⟨op, args, rfl⟩ <;> exact hm
  rcases passOneLine_ok_cases h with ⟨-, hq⟩ | ⟨t, rest, other, ht, hother, -, hq⟩
  · exact .inl (queued hq)
  · rcases List.mem_append.mp (queued hq) with hold | hnew
    · exact .inl hold
    · cases List.mem_singleton.mp hnew
      exact .inr ⟨t, rest, ht, hother, rfl⟩

/-- Every label bound is the label of some line, at the counter as the lines before it left it (45_assembler.md
R168). -/
theorem exists_line_of_mem_labels {lines : List (List Char)} {p : PassOne} {name : Token} {addr : Nat}
    (h : passOne 1 lines PassOne.start = .ok p) (hm : (name, addr) ∈ p.labels) :
    ∃ (before after : List (List Char)) (l : List Char) (t : Token) (rest : List Token) (p0 : PassOne),
      lines = before ++ l :: after ∧ passOne 1 before PassOne.start = .ok p0 ∧ tokenize l = t :: rest ∧
        labelName t = some name ∧ addr = p0.addr := by
  induction lines using List.reverseRecOn generalizing p with
  | nil =>
    cases h
    cases hm
  | append_singleton init l ih =>
    rw [passOne_append] at h
    obtain ⟨q, hq, hlast⟩ := exists_ok_of_bind_eq_ok h
    rw [passOne_cons] at hlast
    obtain ⟨r, hr, hend⟩ := exists_ok_of_bind_eq_ok hlast
    cases hend
    rcases mem_labels_passOneLine hr hm with hold | ⟨t, rest, htokens, hname, haddr⟩
    · obtain ⟨before, after, l', t, rest, p0, hlines, hrest⟩ := ih hq hold
      exact ⟨before, after ++ [l], l', t, rest, p0, by rw [hlines, List.append_assoc, List.cons_append], hrest⟩
    · exact ⟨init, [], l, t, rest, q, rfl, hq, htokens, hname, haddr⟩

/-- The label of a line is bound, from that line on, to the counter as the lines before it left it (45_assembler.md
R168). -/
theorem lookup_of_line {before after : List (List Char)} {l : List Char} {t name : Token} {rest : List Token}
    {p0 p : PassOne} (h : passOne 1 (before ++ l :: after) PassOne.start = .ok p)
    (hbefore : passOne 1 before PassOne.start = .ok p0) (htokens : tokenize l = t :: rest)
    (hname : labelName t = some name) : p.labels.lookup name = some p0.addr := by
  rw [passOne_append, hbefore] at h
  obtain ⟨q, hq, hafter⟩ := exists_ok_of_bind_eq_ok ((passOne_cons _ _ _ _).symm.trans h)
  rw [htokens] at hq
  exact lookup_passOne (lookup_passOneLine hname hq) hafter

/-- Settles O57, from the invariant of pass 1 and the line that binds each label. -/
theorem labelsBindAddresses : Obligations.LabelsBindAddresses := by
  unfold Obligations.LabelsBindAddresses
  intro lines p h
  have hlaid := passOne_laid h
  refine ⟨fun before after l t rest name p0 hlines hbefore htokens hname => ?_,
    fun name addr hm => exists_line_of_mem_labels h hm, hlaid.nodup, hlaid.label, fun e he => hlaid.entry_le he,
    hlaid.counter, hlaid.entry⟩
  exact lookup_of_line (hlines ▸ h) hbefore htokens hname

theorem passOneLine_of_bound_label {t name : Token} {rest : List Token} {p : PassOne} (line : Nat)
    (hname : labelName t = some name) (hbound : (p.labels.lookup name).isSome = true) :
    passOneLine (t :: rest) line p = .error (.duplicateLabel name line) := by
  simp only [passOneLine, hname, hbound, if_true]

/-- An error of pass 1 is the assembly's (45_assembler.md R181). -/
theorem assemble_of_passOne_error {lines : List (List Char)} {e : AssembleError}
    (h : passOne 1 lines PassOne.start = .error e) : assemble lines = .error e := by
  rw [assemble, h]

theorem assemble_of_passOne_ok {lines : List (List Char)} {p : PassOne}
    (h : passOne 1 lines PassOne.start = .ok p) : assemble lines = passTwo p.labels p.queue := by
  rw [assemble, h]

/-- Pass 1 sees of each line only what is left of it after case folding (45_assembler.md R162). -/
theorem passOne_eq_of_folded_eq {ls ls' : List (List Char)}
    (h : ls.map (fun l => l.flatMap upperChar) = ls'.map (fun l => l.flatMap upperChar)) (line : Nat) (p : PassOne) :
    passOne line ls p = passOne line ls' p := by
  induction ls generalizing ls' line p with
  | nil =>
    cases ls' with
    | nil => rfl
    | cons l' ls' => cases h
  | cons l ls ih =>
    cases ls' with
    | nil => cases h
    | cons l' ls' =>
      obtain ⟨hl, hls⟩ := List.cons_eq_cons.mp h
      have htokens : tokenize l = tokenize l' := congrArg (fun c => splitTokens [] (spaceAfterColons c)) hl
      rw [passOne_cons, passOne_cons, htokens]
      exact congrArg _ (funext fun q => ih hls (line + 1) q)

/-- Settles O55: pass 1 ends at the line whose label is bound, and the lines after it are not read. -/
theorem boundLabelFails : Obligations.BoundLabelFails := by
  unfold Obligations.BoundLabelFails
  refine ⟨fun before after l t rest p name hbefore htokens hname hbound => ?_, fun ls ls' h => ?_, by decide⟩
  · have hline := passOneLine_of_bound_label (rest := rest) (1 + before.length) hname hbound
    rw [Nat.add_comm before.length]
    refine assemble_of_passOne_error ?_
    rw [passOne_append, hbefore]
    exact (passOne_cons _ _ _ _).trans (by rw [htokens, hline]; rfl)
  · rw [assemble, assemble, passOne_eq_of_folded_eq h]

end Sys2Proof.Machine
end

section
/-! The statement on literals (45_assembler.md R175, R176). -/

namespace Sys2Proof.Machine

/-- The last digit of a string counts once, what stands before it the base times (45_assembler.md R175). -/
theorem readDigits_append_singleton (base acc : Nat) (digits : List Char) (c : Char) :
    readDigits base acc (digits ++ [c]) =
      (readDigits base acc digits).bind fun n => (baseDigit base c).map fun d => n * base + d := by
  induction digits generalizing acc with
  | nil => cases hc : baseDigit base c <;> simp [readDigits, hc]
  | cons e es ih => cases he : baseDigit base e <;> simp [readDigits, he, ih]

theorem readDigits_eq_none_of_mem {base : Nat} {c : Char} {digits : List Char} (acc : Nat) (hm : c ∈ digits)
    (hc : baseDigit base c = none) : readDigits base acc digits = none := by
  induction digits generalizing acc with
  | nil => cases hm
  | cons e es ih =>
    cases he : baseDigit base e with
    | none => simp [readDigits, he]
    | some d =>
      have hne : c ≠ e := fun h => by rw [← h, hc] at he; cases he
      simpa [readDigits, he] using ih _ ((List.mem_cons.mp hm).resolve_left hne)

theorem exists_readDigits_eq_some {base : Nat} {digits : List Char} (acc : Nat)
    (h : ∀ e ∈ digits, (baseDigit base e).isSome = true) : ∃ n, readDigits base acc digits = some n := by
  induction digits generalizing acc with
  | nil => exact ⟨acc, rfl⟩
  | cons e es ih =>
    obtain ⟨d, hd⟩ := Option.isSome_iff_exists.mp (h e List.mem_cons_self)
    simpa [readDigits, hd] using ih (acc * base + d) fun e' he' => h e' (List.mem_cons_of_mem e he')

theorem digitsValue_of_ne_nil {base : Nat} {digits : List Char} (h : digits ≠ []) :
    digitsValue base digits = readDigits base 0 digits :=
  if_neg h

theorem digitsValue_singleton (base : Nat) (c : Char) : digitsValue base [c] = baseDigit base c := by
  cases hc : baseDigit base c <;> simp [digitsValue, readDigits, hc]

theorem digitsValue_append_singleton (base : Nat) {digits : List Char} (c : Char) (h : digits ≠ []) :
    digitsValue base (digits ++ [c]) =
      (digitsValue base digits).bind fun n => (baseDigit base c).map fun d => n * base + d := by
  rw [digitsValue_of_ne_nil h, digitsValue_of_ne_nil (List.append_ne_nil_of_left_ne_nil h _),
    readDigits_append_singleton]

theorem digitsValue_eq_none_of_mem {base : Nat} {c : Char} {digits : List Char} (hm : c ∈ digits)
    (hc : baseDigit base c = none) : digitsValue base digits = none := by
  rw [digitsValue_of_ne_nil (List.ne_nil_of_mem hm), readDigits_eq_none_of_mem 0 hm hc]

/-- After a mark the digits are read in its base (45_assembler.md R175). -/
theorem parseLiteral_mark {mark : Token} {base : Nat}
    (h : (mark, base) ∈ [(['0', 'x'], 16), (['0', 'X'], 16), (['%'], 2)]) (digits : List Char) : parseLiteral (mark ++ digits) = digitsValue base digits := by
  simp only [List.mem_cons, Prod.mk.injEq, List.not_mem_nil, or_false] at h
  rcases h with ⟨rfl, rfl⟩ | ⟨rfl, rfl⟩ | ⟨rfl, rfl⟩ <;> rfl

/-- A token with none of the marks is decimal (45_assembler.md R175). -/
theorem parseLiteral_of_no_mark {t : Token} (h : ∀ mark ∈ [['0', 'x'], ['0', 'X'], ['%']], ¬ mark <+: t) :
    parseLiteral t = digitsValue 10 t := by
  unfold parseLiteral
  split
  · exact absurd ⟨_, rfl⟩ (h ['0', 'x'] (by simp))
  · exact absurd ⟨_, rfl⟩ (h ['0', 'X'] (by simp))
  · exact absurd ⟨_, rfl⟩ (h ['%'] (by simp))
  · rfl

/-- Where all characters but the last are decimal digits, one that is none is the last. -/
theorem eq_nil_of_decimal_append {digits front rest : List Char} {c e : Char}
    (h : ∀ d ∈ digits, (baseDigit 10 d).isSome = true) (he : baseDigit 10 e = none)
    (heq : digits ++ [c] = front ++ e :: rest) : rest = [] := by
  rcases List.eq_nil_or_concat rest with hnil | ⟨mid, last, rfl⟩
  · exact hnil
  · rw [List.concat_eq_append, ← List.cons_append, ← List.append_assoc] at heq
    have hm : e ∈ digits := (List.append_inj' heq rfl).1 ▸ List.mem_append_right _ List.mem_cons_self
    simpa [he] using h e hm

/-- A token of decimal digits but for its last character is decimal: a mark in it leaves no digit after it, and is no
decimal number either. -/
theorem parseLiteral_decimal_append {digits : List Char} (c : Char)
    (h : ∀ e ∈ digits, (baseDigit 10 e).isSome = true) :
    parseLiteral (digits ++ [c]) = digitsValue 10 (digits ++ [c]) := by
  unfold parseLiteral
  split
  case h_1 heq =>
    cases eq_nil_of_decimal_append (front := ['0']) h (by decide) heq
    rw [heq]
    decide
  case h_2 heq =>
    cases eq_nil_of_decimal_append (front := ['0']) h (by decide) heq
    rw [heq]
    decide
  case h_3 heq =>
    cases eq_nil_of_decimal_append (front := []) h (by decide) heq
    rw [heq]
    decide
  case h_4 => rfl

theorem parseLiteral_of_decimal {digits : List Char} (h : ∀ e ∈ digits, (baseDigit 10 e).isSome = true) :
    parseLiteral digits = digitsValue 10 digits := by
  have noMark {mark : Token} {e : Char} (he : e ∈ mark) (hno : baseDigit 10 e = none) : ¬ mark <+: digits :=
    fun hpre => by simpa [hno] using h e (hpre.subset he)
  refine parseLiteral_of_no_mark fun mark hmark => ?_
  simp only [List.mem_cons, List.not_mem_nil, or_false] at hmark
  rcases hmark with rfl | rfl | rfl
  · exact noMark (e := 'x') (by simp) (by decide)
  · exact noMark (e := 'X') (by simp) (by decide)
  · exact noMark (e := '%') (by simp) (by decide)

theorem baseDigit_hexDigit {n : Nat} (h : n < 16) : baseDigit 16 (hexDigit n) = some n := by
  interval_cases n <;> decide

/-- Settles O54: each base's digit string is read from its last digit on. -/
theorem literalDigitsArePositional : Obligations.LiteralDigitsArePositional := by
  unfold Obligations.LiteralDigitsArePositional
  refine ⟨fun mark base hmark => ?_, ⟨rfl, fun c => ?_, fun digits c hne hdigits => ?_⟩, fun t c hno hm hc => ?_,
    fun n hn => baseDigit_hexDigit hn⟩
  · have hparse := parseLiteral_mark hmark
    refine ⟨by simpa [digitsValue] using hparse [], fun c => (hparse [c]).trans (digitsValue_singleton base c),
      fun digits c hne => ?_⟩
    rw [List.append_assoc, hparse, hparse, digitsValue_append_singleton base c hne]
    cases digitsValue base digits <;> cases baseDigit base c <;> rfl
  · exact (parseLiteral_decimal_append (digits := []) c nofun).trans (digitsValue_singleton 10 c)
  · obtain ⟨n, hn⟩ := exists_readDigits_eq_some 0 hdigits
    have hvalue : digitsValue 10 digits = some n := (digitsValue_of_ne_nil hne).trans hn
    refine ⟨n, (parseLiteral_of_decimal hdigits).trans hvalue, ?_⟩
    rw [parseLiteral_decimal_append c hdigits, digitsValue_append_singleton 10 c hne, hvalue]
    rfl
  · rw [parseLiteral_of_no_mark hno, digitsValue_eq_none_of_mem hm hc]

end Sys2Proof.Machine
end

section
/-! The statements on the assembled bytes: where each queued instruction lies in them, and that it runs once they are
loaded (45_assembler.md R178, R187). -/

namespace Sys2Proof.Machine

/-- An entry that pass 2 accepts gives the bytes of its instruction, with the operand its first token resolves to
(45_assembler.md R172 to R177). -/
theorem passTwoEntry_ok {labels : LabelTable} {e : QueueEntry} {bytes : List Byte}
    (h : passTwoEntry labels e = .ok bytes) :
    ∃ v : Byte, bytes = encode (e.op.instr v) ∧
      (e.op.hasOperand = true → ∃ t rest, e.args = t :: rest ∧ resolve labels t = some v.toNat) := by
  cases ho : e.op.hasOperand with
  | false =>
    simp only [passTwoEntry, ho, Bool.false_eq_true, if_false, Except.ok.injEq] at h
    exact ⟨0, by simp [encode_instr, ho, h], nofun⟩
  | true =>
    cases hargs : e.args with
    | nil =>
      rw [passTwoEntry_of_no_args ho hargs] at h
      cases h
    | cons t rest =>
      cases hres : resolve labels t with
      | none =>
        rw [passTwoEntry_of_unresolved ho hargs hres] at h
        cases h
      | some v =>
        rw [passTwoEntry_of_resolved ho hargs hres] at h
        split at h
        · cases h
          have hv : (BitVec.ofNat 8 v).toNat = v := by
            rw [BitVec.toNat_ofNat]
            omega
          exact ⟨BitVec.ofNat 8 v, by simp [encode_instr, ho], fun _ => ⟨t, rest, rfl, by rw [hres, hv]⟩⟩
        · cases h

/-- Pass 2 gives the bytes of the entries in order (45_assembler.md R178). -/
theorem passTwo_cons_ok {labels : LabelTable} {e : QueueEntry} {es : List QueueEntry} {out : List Byte} :
    passTwo labels (e :: es) = .ok out ↔
      ∃ bytes rest, passTwoEntry labels e = .ok bytes ∧ passTwo labels es = .ok rest ∧ out = bytes ++ rest := by
  rw [passTwo]
  cases passTwoEntry labels e with
  | error err => simp
  | ok bytes =>
    cases passTwo labels es with
    | error err => simp
    | ok rest => simp [eq_comm]

theorem passTwo_append_ok {labels : LabelTable} {front back : List QueueEntry} {out : List Byte}
    (h : passTwo labels (front ++ back) = .ok out) :
    ∃ first second, passTwo labels front = .ok first ∧ passTwo labels back = .ok second ∧ out = first ++ second := by
  induction front generalizing out with
  | nil => exact ⟨[], out, rfl, h, rfl⟩
  | cons e es ih =>
    obtain ⟨bytes, rest, hbytes, hrest, rfl⟩ := passTwo_cons_ok.mp h
    obtain ⟨first, second, hfirst, hsecond, rfl⟩ := ih hrest
    exact ⟨bytes ++ first, second, passTwo_cons_ok.mpr ⟨bytes, first, hbytes, hfirst, rfl⟩, hsecond,
      (List.append_assoc _ _ _).symm⟩

/-- The output is as long as the queued instructions together (45_assembler.md R178). -/
theorem passTwo_length {labels : LabelTable} {queue : List QueueEntry} {out : List Byte}
    (h : passTwo labels queue = .ok out) : out.length = queueLength queue := by
  induction queue generalizing out with
  | nil =>
    cases h
    rfl
  | cons e es ih =>
    obtain ⟨bytes, rest, hbytes, hrest, rfl⟩ := passTwo_cons_ok.mp h
    obtain ⟨v, rfl, -⟩ := passTwoEntry_ok hbytes
    rw [List.length_append, encode_length, Opcode.instr_length, ih hrest, queueLength_cons]

/-- An assembly that succeeds has passed both passes (45_assembler.md R181). -/
theorem assemble_ok {lines : List (List Char)} {out : List Byte} (h : assemble lines = .ok out) :
    ∃ p, passOne 1 lines PassOne.start = .ok p ∧ passTwo p.labels p.queue = .ok out := by
  cases hp : passOne 1 lines PassOne.start with
  | error e =>
    rw [assemble_of_passOne_error hp] at h
    cases h
  | ok p => exact ⟨p, rfl, assemble_of_passOne_ok hp ▸ h⟩

/-- The bytes of a queued instruction stand at its address in the output of pass 2 (45_assembler.md R178). -/
theorem exists_bytes_at_entry {p : PassOne} {out : List Byte} (hlaid : p.Laid)
    (h : passTwo p.labels p.queue = .ok out) {e : QueueEntry} (he : e ∈ p.queue) :
    ∃ (v : Byte) (front back : List Byte), out = front ++ (encode (e.op.instr v) ++ back) ∧ front.length = e.addr ∧
      (e.op.hasOperand = true → ∃ t rest, e.args = t :: rest ∧ resolve p.labels t = some v.toNat) := by
  obtain ⟨before, after, hqueue⟩ := List.append_of_mem he
  rw [hqueue] at h
  obtain ⟨front, second, hfront, hsecond, rfl⟩ := passTwo_append_ok h
  obtain ⟨bytes, back, hbytes, -, rfl⟩ := passTwo_cons_ok.mp hsecond
  obtain ⟨v, rfl, hoperand⟩ := passTwoEntry_ok hbytes
  exact ⟨v, front, back, rfl, (passTwo_length hfront).trans (hlaid.entry before after e hqueue).symm, hoperand⟩

/-- Settles O58: the output is cut at the entry's address. -/
theorem assembledLayout : Obligations.AssembledLayout := by
  unfold Obligations.AssembledLayout
  intro lines out h
  obtain ⟨p, hp, hout⟩ := assemble_ok h
  have hlaid := passOne_laid hp
  refine ⟨p, hp, (passTwo_length hout).trans hlaid.counter.symm, fun e he => ?_⟩
  obtain ⟨v, front, back, rfl, haddr, hoperand⟩ := exists_bytes_at_entry hlaid hout he
  refine ⟨v, ?_, hoperand⟩
  have hnext : e.addr + e.op.length = (front ++ encode (e.op.instr v)).length := by
    rw [List.length_append, encode_length, Opcode.instr_length, haddr]
  rw [hnext, ← haddr, List.drop_left, ← List.append_assoc, List.drop_left, decode_encode_append]

/-- A byte of a sequence loaded at 0 is what memory reads at its place (70_reset_and_hazards.md R230). -/
theorem State.busRead_of_loadProgram_zero {bytes : List Byte} {s t : State} {k : Nat} {b : Byte} (hwf : s.mem.wf)
    (h : s.loadProgram bytes 0 = .ok t) (hk : bytes[k]? = some b) : t.busRead k = .ok b := by
  obtain ⟨hlt, hget⟩ := List.getElem?_eq_some_iff.mp hk
  obtain ⟨-, hread⟩ := State.loadProgram_ok_mem hwf h
  have hfits : bytes.length ≤ 256 := by
    rcases State.loadProgram_cases bytes 0 s with ⟨_, hs⟩ | ⟨hfits, _⟩
    · rw [hs] at h
      cases h
    · simpa using hfits
  rw [hread k (by omega), if_pos (by simpa using hlt)]
  simp [hget, hlt]

/-- Settles O59: the two fetches at the entry's address read its encoding. -/
theorem loadedAssemblyRuns : Obligations.LoadedAssemblyRuns := by
  unfold Obligations.LoadedAssemblyRuns
  intro lines out s t hwf hcompile hload
  obtain ⟨p, hp, hout⟩ := assemble_ok hcompile
  refine ⟨p, hp, fun e he => ?_⟩
  obtain ⟨v, front, back, rfl, haddr, hoperand⟩ := exists_bytes_at_entry (passOne_laid hp) hout he
  refine ⟨v, hoperand, fun u hr hmem hpc => ?_⟩
  have hread (k : Nat) (b : Byte) (hk : (encode (e.op.instr v) ++ back)[k]? = some b) :
      u.busRead (u.pc.toNat + k) = .ok b := by
    rw [State.busRead_eq, hmem, ← State.busRead_eq, hpc, ← haddr]
    exact State.busRead_of_loadProgram_zero hwf hload (by rwa [List.getElem?_append_right (by omega), Nat.add_sub_cancel_left])
  refine step_of_opcode hr (hread 0 _ ?_) (Opcode.ofByte_byte _) fun ho => hread 1 _ ?_
  · rw [encode_instr]
    split <;> rfl
  · rw [encode_instr, if_pos ho]
    rfl

end Sys2Proof.Machine
end

section
/-! The statement on the disassembly spelling (30_encoding.md R89): its line is read back as the mnemonic and, where there
is one, the operand's literal. -/

namespace Sys2Proof.Machine

/-- A character that the assembler reads as itself: upper case already, no colon and no whitespace (45_assembler.md R162,
R163). -/
structure IsPlain (c : Char) : Prop where
  upper : upperChar c = [c]
  ne_colon : c ≠ ':'
  not_whitespace : isWhitespace c = false

theorem flatMap_upperChar_of_plain {t : Token} (h : ∀ c ∈ t, IsPlain c) : t.flatMap upperChar = t := by
  induction t with
  | nil => rfl
  | cons c cs ih =>
    rw [List.flatMap_cons, (h c List.mem_cons_self).upper, ih fun d hd => h d (List.mem_cons_of_mem c hd)]
    rfl

theorem spaceAfterColons_of_no_colon {line : List Char} (h : ∀ c ∈ line, c ≠ ':') : spaceAfterColons line = line := by
  induction line with
  | nil => rfl
  | cons c cs ih =>
    rw [spaceAfterColons, List.flatMap_cons, if_neg (h c List.mem_cons_self)]
    exact congrArg (c :: ·) (ih fun d hd => h d (List.mem_cons_of_mem c hd))

/-- Plain characters go on with the token being read (45_assembler.md R163). -/
theorem splitTokens_plain_append {t : Token} (h : ∀ c ∈ t, IsPlain c) (current : Token) (line : List Char) :
    splitTokens current (t ++ line) = splitTokens (current ++ t) line := by
  induction t generalizing current with
  | nil => rw [List.nil_append, List.append_nil]
  | cons c cs ih =>
    rw [List.cons_append, splitTokens, (h c List.mem_cons_self).not_whitespace, if_neg (by decide), ih fun d hd => h d (List.mem_cons_of_mem c hd),
      List.append_assoc, List.singleton_append]

theorem isPlain_of_capital {c : Char} (h : 'A'.toNat ≤ c.toNat ∧ c.toNat ≤ 'Z'.toNat) : IsPlain c := by
  have hA : 'A'.toNat = 65 := rfl
  have hZ : 'Z'.toNat = 90 := rfl
  have ha : 'a'.toNat = 97 := rfl
  rw [hA, hZ] at h
  refine ⟨?_, fun hc => ?_, ?_⟩
  · rw [upperChar, if_neg (by omega), if_pos (by omega)]
  · rw [hc] at h
    exact absurd h (by decide)
  · rw [isWhitespace, if_neg (by omega), if_pos (by omega)]

/-- Mnemonics are spelled in capitals (45_assembler.md R166). -/
theorem mnemonicOf_plain (op : Opcode) : ∀ c ∈ mnemonicOf op, IsPlain c := by
  have capitals : ∀ c ∈ mnemonicOf op, 'A'.toNat ≤ c.toNat ∧ c.toNat ≤ 'Z'.toNat := by
    cases op <;> simp [mnemonicOf]
  exact fun c hc => isPlain_of_capital (capitals c hc)

theorem hexDigit_plain {n : Nat} (h : n < 16) : IsPlain (hexDigit n) := by
  interval_cases n <;> exact ⟨by decide, by decide, by decide⟩

/-- The operand's literal after case folding: the `x` of its mark is upper case (45_assembler.md R162). -/
def foldedLiteral (v : Byte) : Token :=
  ['0', 'X', hexDigit (v.toNat / 16), hexDigit (v.toNat % 16)]

theorem hexDigits_lt (v : Byte) : v.toNat / 16 < 16 ∧ v.toNat % 16 < 16 := by
  have := v.isLt
  omega

theorem foldedLiteral_plain (v : Byte) : ∀ c ∈ foldedLiteral v, IsPlain c := by
  obtain ⟨hhigh, hlow⟩ := hexDigits_lt v
  simp only [foldedLiteral, List.forall_mem_cons]
  exact ⟨⟨by decide, by decide, by decide⟩, isPlain_of_capital (by decide), hexDigit_plain hhigh, hexDigit_plain hlow, nofun⟩

theorem hexLiteral_folded (v : Byte) : (hexLiteral v).flatMap upperChar = foldedLiteral v := by
  obtain ⟨hhigh, hlow⟩ := hexDigits_lt v
  have hx : upperChar 'x' = ['X'] := by decide
  have h0 : upperChar '0' = ['0'] := by decide
  simp [hexLiteral, foldedLiteral, hx, h0, (hexDigit_plain hhigh).upper, (hexDigit_plain hlow).upper]

/-- The folded literal has the byte's value (45_assembler.md R175). -/
theorem parseLiteral_foldedLiteral (v : Byte) : parseLiteral (foldedLiteral v) = some v.toNat := by
  obtain ⟨hhigh, hlow⟩ := hexDigits_lt v
  have hmark := parseLiteral_mark (mark := ['0', 'X']) (base := 16) (by simp)
    ([hexDigit (v.toNat / 16)] ++ [hexDigit (v.toNat % 16)])
  rw [digitsValue_append_singleton 16 _ (by simp), digitsValue_singleton, baseDigit_hexDigit hhigh,
    baseDigit_hexDigit hlow] at hmark
  exact hmark.trans (congrArg some (Nat.div_add_mod' v.toNat 16))

theorem mnemonicOf_ne_nil (op : Opcode) : mnemonicOf op ≠ [] := by
  cases op <;> decide

/-- The line of an instruction with an operand gives two tokens, that of any other one (45_assembler.md R163). -/
theorem tokenize_disassemble (i : Instr) :
    tokenize (disassemble i) = mnemonicOf i.opcode :: (i.operand.map foldedLiteral).toList := by
  have hplain := mnemonicOf_plain i.opcode
  have hne := mnemonicOf_ne_nil i.opcode
  have hfold := flatMap_upperChar_of_plain hplain
  cases ho : i.operand with
  | none =>
    have hline : disassemble i = mnemonicOf i.opcode := by rw [disassemble, ho]
    rw [hline, tokenize, hfold, spaceAfterColons_of_no_colon fun c hc => (hplain c hc).ne_colon]
    simpa [splitTokens, hne] using splitTokens_plain_append hplain [] []
  | some v =>
    have hline : disassemble i = mnemonicOf i.opcode ++ ' ' :: hexLiteral v := by rw [disassemble, ho]
    have hfolded : (disassemble i).flatMap upperChar = mnemonicOf i.opcode ++ ' ' :: foldedLiteral v := by
      rw [hline, List.flatMap_append, List.flatMap_cons, hfold, hexLiteral_folded]
      rfl
    have hcolon : ∀ c ∈ mnemonicOf i.opcode ++ ' ' :: foldedLiteral v, c ≠ ':' := by
      intro c hc
      rcases List.mem_append.mp hc with hc | hc
      · exact (hplain c hc).ne_colon
      · rcases List.mem_cons.mp hc with rfl | hc
        · decide
        · exact (foldedLiteral_plain v c hc).ne_colon
    have hspace : isWhitespace ' ' = true := by decide
    have hoperand : splitTokens [] (foldedLiteral v) = [foldedLiteral v] := by
      simpa [splitTokens, foldedLiteral] using splitTokens_plain_append (foldedLiteral_plain v) [] []
    rw [tokenize, hfolded, spaceAfterColons_of_no_colon hcolon, splitTokens_plain_append hplain, List.nil_append,
      splitTokens, if_pos hspace, if_neg hne, hoperand]
    rfl

theorem opcodeOfName_mnemonicOf (op : Opcode) : opcodeOfName (mnemonicOf op) = some op := by
  cases op <;> decide

theorem labelName_mnemonicOf (op : Opcode) : labelName (mnemonicOf op) = none := by
  cases op <;> decide

/-- A line that starts with a mnemonic queues its instruction (45_assembler.md R171). -/
theorem passOneLine_mnemonic (op : Opcode) (args : List Token) (line : Nat) (p : PassOne) :
    passOneLine (mnemonicOf op :: args) line p = .ok (p.enqueue op args line) := by
  simp only [passOneLine, labelName_mnemonicOf, queueInstruction, opcodeOfName_mnemonicOf, PassOne.enqueue]

/-- An entry whose operand token is the folded literal gives the instruction's bytes. -/
theorem passTwoEntry_foldedLiteral (i : Instr) (addr line : Nat) :
    passTwoEntry [] ⟨addr, i.opcode, (i.operand.map foldedLiteral).toList, line⟩ = .ok (encode i) := by
  cases ho : i.operand with
  | none =>
    have hop : i.opcode.hasOperand = false := by rw [← i.operand_isSome, ho, Option.isSome_none]
    simp [passTwoEntry, hop, encode, ho]
  | some v =>
    have hop : i.opcode.hasOperand = true := by rw [← i.operand_isSome, ho, Option.isSome_some]
    have hres : resolve [] (foldedLiteral v) = some v.toNat :=
      resolve_eq_some_iff.mpr (.inr ⟨rfl, parseLiteral_foldedLiteral v⟩)
    have hle : v.toNat ≤ 255 := Nat.le_of_lt_succ v.isLt
    refine (passTwoEntry_of_resolved hop rfl hres).trans ?_
    rw [if_pos hle, encode, ho, BitVec.ofNat_toNat, BitVec.setWidth_eq]

/-- Pass 1 binds no label on these lines, and what it queues gives the instructions' bytes. -/
theorem passOne_disassembly (is : List Instr) (line : Nat) (p : PassOne) :
    ∃ q added, passOne line (is.map disassemble) p = .ok q ∧ q.labels = p.labels ∧ q.queue = p.queue ++ added ∧
      passTwo [] added = .ok (encodeAll is) := by
  induction is generalizing line p with
  | nil => exact ⟨p, [], rfl, rfl, (List.append_nil _).symm, rfl⟩
  | cons i is ih =>
    obtain ⟨q, added, hq, hlabels, hqueue, hbytes⟩ :=
      ih (line + 1) (p.enqueue i.opcode (i.operand.map foldedLiteral).toList line)
    refine ⟨q, ⟨p.addr, i.opcode, (i.operand.map foldedLiteral).toList, line⟩ :: added, ?_, hlabels, ?_, ?_⟩
    · rw [List.map_cons, passOne_cons, tokenize_disassemble, passOneLine_mnemonic]
      exact hq
    · rw [hqueue, PassOne.enqueue, List.append_assoc, List.singleton_append]
    · exact passTwo_cons_ok.mpr ⟨_, _, passTwoEntry_foldedLiteral i p.addr line, hbytes, rfl⟩

/-- Settles O60, by induction on the instructions, each a line. -/
theorem disassemblyAssemblesBack : Obligations.DisassemblyAssemblesBack := by
  unfold Obligations.DisassemblyAssemblesBack
  intro is
  obtain ⟨q, added, hq, hlabels, hqueue, hbytes⟩ := passOne_disassembly is 1 PassOne.start
  rw [assemble_of_passOne_ok hq, hlabels, hqueue]
  exact hbytes

end Sys2Proof.Machine
end
